-- ==== Sys2Proof/Word.lean ====
section
/-! DEFINITION. The word types: the widths the spec gives its values (00_scope.md R7, R11; 30_encoding.md R82).
Every value of this hardware is unsigned. -/

namespace Sys2Proof

/-- An 8-bit value: a general register, a byte of working memory, the field `NN`. -/
abbrev Byte := BitVec 8

/-- A 16-bit value: an instruction word, `I`, `pc`. -/
abbrev Word := BitVec 16

/-- A 4-bit field that selects a general register (`X`, `Y`; R82). -/
abbrev RegIdx := BitVec 4

/-- A 4-bit field used as a number (`N`, the sprite height) or as the family selector `op` (R82). -/
abbrev Nibble := BitVec 4

/-- A 12-bit field: the address immediate `NNN`, or the low twelve bits that a `RAW` word carries undecoded (R82, R83). -/
abbrev Field12 := BitVec 12

end Sys2Proof
end

