-- ==== Sys2Proof/Syntax.lean ====
section
/-! DEFINITION. The instructions: one constructor per row of spec/opcode_table.json, which are the eighteen decode
classes of 30_encoding.md R85. A row of format `RAW` keeps its twelve undecoded bits as `payload`, because the
diagnostic event carries the whole word (R83, R93). -/

namespace Sys2Proof

/-- The eighteen decode classes (R85), in the order of the opcode table. -/
inductive Instr where
  /-- clear-screen, `0x00E0` (R150). -/
  | clearScreen
  /-- return, `0x00EE` (R181). -/
  | ret
  /-- unknown-0, every `0x0NNN` other than the two above (R184). -/
  | unknown0 (payload : Field12)
  /-- jump, `0x1NNN` (R112). -/
  | jump (nnn : Field12)
  /-- call, `0x2NNN` (R182). -/
  | call (nnn : Field12)
  /-- skip-if-equal, `0x3XNN` (R113). -/
  | skipIfEqual (x : RegIdx) (nn : Byte)
  /-- unknown-4, `0x4NNN` (R185). -/
  | unknown4 (payload : Field12)
  /-- unknown-5, `0x5NNN` (R186). -/
  | unknown5 (payload : Field12)
  /-- load-immediate, `0x6XNN` (R130). -/
  | loadImmediate (x : RegIdx) (nn : Byte)
  /-- add-immediate, `0x7XNN` (R131). -/
  | addImmediate (x : RegIdx) (nn : Byte)
  /-- unknown-8, `0x8NNN` (R187). -/
  | unknown8 (payload : Field12)
  /-- unknown-9, `0x9NNN` (R188). -/
  | unknown9 (payload : Field12)
  /-- load-index, `0xANNN` (R132). -/
  | loadIndex (nnn : Field12)
  /-- unknown-B, `0xBNNN` (R189). -/
  | unknownB (payload : Field12)
  /-- unknown-C, `0xCNNN` (R190). -/
  | unknownC (payload : Field12)
  /-- draw-sprite, `0xDXYN` (R151). -/
  | drawSprite (x y : RegIdx) (n : Nibble)
  /-- unknown-E, `0xENNN` (R191). -/
  | unknownE (payload : Field12)
  /-- misc, `0xFNNN` (R183). -/
  | misc (payload : Field12)
deriving DecidableEq, Repr

/-- The row's mnemonic as spec/opcode_table.json spells it (R91). -/
def Instr.mnemonic : Instr → String
  | .clearScreen => "clear-screen"
  | .ret => "return"
  | .unknown0 _ => "unknown-0"
  | .jump _ => "jump"
  | .call _ => "call"
  | .skipIfEqual _ _ => "skip-if-equal"
  | .unknown4 _ => "unknown-4"
  | .unknown5 _ => "unknown-5"
  | .loadImmediate _ _ => "load-immediate"
  | .addImmediate _ _ => "add-immediate"
  | .unknown8 _ => "unknown-8"
  | .unknown9 _ => "unknown-9"
  | .loadIndex _ => "load-index"
  | .unknownB _ => "unknown-B"
  | .unknownC _ => "unknown-C"
  | .drawSprite _ _ _ => "draw-sprite"
  | .unknownE _ => "unknown-E"
  | .misc _ => "misc"

end Sys2Proof
end

