-- ==== Sys2Proof/WellFormed.lean ====
section
/-! DEFINITION. Which terms of `Instr` are instructions of the hardware. Every field is as wide as its encoding and
every register index is valid (30_encoding.md R84), so there is one check: an unknown-0 word is neither of the two
exact words of family 0 (R85, R184). -/

namespace Sys2Proof

/-- The twelve low bits of clear-screen's word `0x00E0`. -/
def clearScreenLow : Field12 := 0x0E0

/-- The twelve low bits of return's word `0x00EE`. -/
def returnLow : Field12 := 0x0EE

/-- The instruction is one that some word encodes (R85). -/
def WellFormed : Instr → Bool
  | .clearScreen => true
  | .ret => true
  | .unknown0 payload => payload != clearScreenLow && payload != returnLow
  | .jump _ => true
  | .call _ => true
  | .skipIfEqual _ _ => true
  | .unknown4 _ => true
  | .unknown5 _ => true
  | .loadImmediate _ _ => true
  | .addImmediate _ _ => true
  | .unknown8 _ => true
  | .unknown9 _ => true
  | .loadIndex _ => true
  | .unknownB _ => true
  | .unknownC _ => true
  | .drawSprite _ _ _ => true
  | .unknownE _ => true
  | .misc _ => true

end Sys2Proof
end

