-- ==== Sys2Proof/Decode.lean ====
section
/-! DEFINITION. Decode (30_encoding.md R82 to R87), the encoder written from the same table, and the opcode table
itself. -/

namespace Sys2Proof

/-- The family selector `op = w[15:12]` (R82). -/
def fieldOp (w : Word) : Nibble := w.extractLsb' 12 4

/-- The first register index `X = w[11:8]` (R82). -/
def fieldX (w : Word) : RegIdx := w.extractLsb' 8 4

/-- The second register index `Y = w[7:4]` (R82). -/
def fieldY (w : Word) : RegIdx := w.extractLsb' 4 4

/-- The low nibble `N = w[3:0]` (R82). -/
def fieldN (w : Word) : Nibble := w.extractLsb' 0 4

/-- The low byte `NN = w[7:0]` (R82). -/
def fieldNN (w : Word) : Byte := w.extractLsb' 0 8

/-- The low twelve bits `NNN = w[11:0]` (R82). -/
def fieldNNN (w : Word) : Field12 := w.extractLsb' 0 12

/-- Decode of a word whose family is `op`, for the words that are not one of the two exact words (R85). Family `0xF`
is the last arm: a nibble has no other value left. -/
def decodeFamily (op : Nibble) (w : Word) : Instr :=
  match op.toNat with
  | 0x0 => .unknown0 (fieldNNN w)
  | 0x1 => .jump (fieldNNN w)
  | 0x2 => .call (fieldNNN w)
  | 0x3 => .skipIfEqual (fieldX w) (fieldNN w)
  | 0x4 => .unknown4 (fieldNNN w)
  | 0x5 => .unknown5 (fieldNNN w)
  | 0x6 => .loadImmediate (fieldX w) (fieldNN w)
  | 0x7 => .addImmediate (fieldX w) (fieldNN w)
  | 0x8 => .unknown8 (fieldNNN w)
  | 0x9 => .unknown9 (fieldNNN w)
  | 0xA => .loadIndex (fieldNNN w)
  | 0xB => .unknownB (fieldNNN w)
  | 0xC => .unknownC (fieldNNN w)
  | 0xD => .drawSprite (fieldX w) (fieldY w) (fieldN w)
  | 0xE => .unknownE (fieldNNN w)
  | _ => .misc (fieldNNN w)

/-- Decode, a total function from words to decode classes: the two exact words first, then the family (R85). -/
def decodeWord (w : Word) : Instr :=
  if w = 0x00E0 then .clearScreen
  else if w = 0x00EE then .ret
  else decodeFamily (fieldOp w) w

/-- The instruction word made of its two bytes, the first (at the lower address) the high one (R56, R81). -/
def wordOfBytes (high low : Byte) : Word := high ++ low

/-- The two bytes of a word in the order memory holds them, high byte first (R56). -/
def bytesOfWord (w : Word) : List Byte := [w.extractLsb' 8 8, w.extractLsb' 0 8]

/-- Why bytes are no instruction. Decoding a whole word never fails (R87); only a missing byte is rejected. -/
inductive DecodeError where
  /-- Fewer than the two bytes every instruction has (R80). -/
  | truncated
deriving DecidableEq, Repr

/-- Decode of a byte stream: the first instruction and the bytes after it. -/
def decode : List Byte → Except DecodeError (Instr × List Byte)
  | high :: low :: rest => .ok (decodeWord (wordOfBytes high low), rest)
  | [_] => .error .truncated
  | [] => .error .truncated

/-- A word of its family selector and its low twelve bits (R82, format `NNN` and `RAW`). -/
def packWord (op : Nibble) (low : Field12) : Word := op ++ low

/-- The low twelve bits of format `XNN` (R83). -/
def packXNN (x : RegIdx) (nn : Byte) : Field12 := x ++ nn

/-- The low twelve bits of format `XYN` (R83). -/
def packXYN (x y : RegIdx) (n : Nibble) : Field12 := x ++ y ++ n

/-- The word that encodes an instruction (R83, R86, R91). -/
def encode : Instr → Word
  | .clearScreen => packWord 0x0 clearScreenLow
  | .ret => packWord 0x0 returnLow
  | .unknown0 payload => packWord 0x0 payload
  | .jump nnn => packWord 0x1 nnn
  | .call nnn => packWord 0x2 nnn
  | .skipIfEqual x nn => packWord 0x3 (packXNN x nn)
  | .unknown4 payload => packWord 0x4 payload
  | .unknown5 payload => packWord 0x5 payload
  | .loadImmediate x nn => packWord 0x6 (packXNN x nn)
  | .addImmediate x nn => packWord 0x7 (packXNN x nn)
  | .unknown8 payload => packWord 0x8 payload
  | .unknown9 payload => packWord 0x9 payload
  | .loadIndex nnn => packWord 0xA nnn
  | .unknownB payload => packWord 0xB payload
  | .unknownC payload => packWord 0xC payload
  | .drawSprite x y n => packWord 0xD (packXYN x y n)
  | .unknownE payload => packWord 0xE payload
  | .misc payload => packWord 0xF payload

/-- The two bytes that encode an instruction, in memory order. -/
def encodeBytes (i : Instr) : List Byte := bytesOfWord (encode i)

/-- A row of spec/opcode_table.json: a word belongs to it when `w & mask = bits`, and no row before it takes the word. -/
structure OpcodeRow where
  mnemonic : String
  bits : Word
  mask : Word
deriving DecidableEq, Repr

/-- The word has the row's fixed bits. -/
def OpcodeRow.accepts (r : OpcodeRow) (w : Word) : Bool := w &&& r.mask == r.bits

/-- spec/opcode_table.json with its rows of priority 0, the exact words, before those of priority 1 (30_encoding.md's
opening paragraph, R85). -/
def opcodeTable : List OpcodeRow :=
  [ ⟨"clear-screen", 0x00E0, 0xFFFF⟩,
    ⟨"return", 0x00EE, 0xFFFF⟩,
    ⟨"unknown-0", 0x0000, 0xF000⟩,
    ⟨"jump", 0x1000, 0xF000⟩,
    ⟨"call", 0x2000, 0xF000⟩,
    ⟨"skip-if-equal", 0x3000, 0xF000⟩,
    ⟨"unknown-4", 0x4000, 0xF000⟩,
    ⟨"unknown-5", 0x5000, 0xF000⟩,
    ⟨"load-immediate", 0x6000, 0xF000⟩ ] ++
  [ ⟨"add-immediate", 0x7000, 0xF000⟩,
    ⟨"unknown-8", 0x8000, 0xF000⟩,
    ⟨"unknown-9", 0x9000, 0xF000⟩,
    ⟨"load-index", 0xA000, 0xF000⟩,
    ⟨"unknown-B", 0xB000, 0xF000⟩,
    ⟨"unknown-C", 0xC000, 0xF000⟩,
    ⟨"draw-sprite", 0xD000, 0xF000⟩,
    ⟨"unknown-E", 0xE000, 0xF000⟩,
    ⟨"misc", 0xF000, 0xF000⟩ ]

/-- The mnemonic of the first row that takes the word. -/
def tableMnemonic (w : Word) : Option String :=
  (opcodeTable.find? (fun r => r.accepts w)).map OpcodeRow.mnemonic

/-- The bytes of an instruction whose bits are `w` in the opcode table's numbering, `nbits` of them given and every
bit above zero: the one 16-bit word, high byte first. -/
def tableBytes (nbits w : Nat) : List Byte := bytesOfWord (BitVec.ofNat 16 (w % 2 ^ nbits))

/-- The instruction the decoder reads from an instruction whose bits are `w`, numbered as spec/opcode_table.json
numbers them. No instruction has more than 16 bits (R80). -/
def decodeTableWord (nbits w : Nat) : Option Instr :=
  if 16 < nbits then none
  else match decode (tableBytes nbits w) with
    | .ok (i, _) => some i
    | .error _ => none

end Sys2Proof
end

