-- ==== Sys2Proof/Config.lean ====
section
/-! DEFINITION. What an implementation fixes: the sizes of 00_scope.md R7, and the one open parameter `mem_init` (R8). -/

namespace Sys2Proof.Config

/-- `MEM_SIZE`, bytes of working memory (R7). -/
def memSize : Nat := 4096

/-- `PROG_BASE`, the load address and entry point (R7). -/
def progBase : Nat := 0x200

/-- `MAX_PROG`, the largest program image in bytes (R7). -/
def maxProg : Nat := 3584

/-- `FB_W`, framebuffer width in pixels (R7). -/
def fbWidth : Nat := 64

/-- `FB_H`, framebuffer height in pixels (R7). -/
def fbHeight : Nat := 32

/-- `SPRITE_W`, sprite width in pixels (R7, R152). -/
def spriteWidth : Nat := 8

/-- `mem_init` (R8, R67): the contents of working memory at power-on. A FREE VALUE: it has no body, so that nothing
can be proved of it and a proved claim holds for every `mem_init`, as R8 asks. Assumption log 1. -/
opaque memInit : Nat → Byte

end Sys2Proof.Config
end

