-- ==== Sys2Proof/Machine/State.lean ====
section
/-! DEFINITION. The state of the machine (10_state.md R20) as plain data, the reasons a step can stop, and the state
after reset (R37). -/

namespace Sys2Proof.Machine

/-- The framebuffer `FB`: 32 rows of 64 one-bit cells, `true` for 1 (R33). `fb[sy][sx]` is the spec's `FB[sy][sx]`. -/
abbrev Framebuffer := Vector (Vector Bool 64) 32

/-- The framebuffer with every cell 0. -/
def blankFramebuffer : Framebuffer := Vector.replicate 32 (Vector.replicate 64 false)

/-- The fault status (R31). -/
inductive FaultStatus where
  /-- `None`: no fault has occurred since the last `RESET`. -/
  | noFault
  /-- `FetchOutOfBounds`: a fetch needed a byte outside 0x000..0xFFF. -/
  | fetchOutOfBounds
  /-- `SpriteReadOutOfBounds`: a draw-sprite needed a sprite byte outside 0x000..0xFFF. -/
  | spriteReadOutOfBounds
deriving DecidableEq, Repr

/-- The class of a diagnostic event (50_host_interface.md R208). `ret` is the spec's class `return`. -/
inductive DiagClass where
  | ret
  | call
  | misc
  | unknown
deriving DecidableEq, Repr

/-- A diagnostic event: the class and the full 16-bit word (R208, R93). -/
structure DiagEvent where
  cls : DiagClass
  word : Word
deriving DecidableEq, Repr

/-- The machine. The first six fields are the whole state the spec gives (R20). `diag` is the model's own: the output
channel of R208, recorded; no step reads it (R36; assumption log 4). -/
structure State where
  /-- The general registers `V0` to `VF` (R21, R22). -/
  v : Vector Byte 16
  /-- The index register `I` (R24). -/
  i : Word
  /-- The program counter `pc` (R26). -/
  pc : Word
  /-- Working memory (R32), the bytes that a `LOAD` wrote, by rising address; any other byte holds `Config.memInit`. -/
  mem : List Host.Cell
  /-- The framebuffer `FB` (R33). -/
  fb : Framebuffer
  /-- The fault status (R31). -/
  fault : FaultStatus
  /-- The diagnostic events emitted so far, oldest first (R208). -/
  diag : List DiagEvent
deriving DecidableEq, Repr

/-- Why a step stops. -/
inductive Fault where
  /-- `step` of a state whose fault status is not `None`: a faulted Engine has no step until `RESET` (R110, R233).
  The faulting step itself is a next state, with the status written (assumption log 3). Safe: the model stops where
  the original software goes on in a way its document leaves undefined. -/
  | engineStopped (cause : FaultStatus)
deriving DecidableEq, Repr

/-- Why there is no meaning. -/
inductive Refusal where
  /-- An instruction that has no meaning yet, by its mnemonic: raised by `exec`'s arms alone. Safe. -/
  | notModelled (mnemonic : String)
  /-- The host operation `LOAD` with more than 3584 bytes, which is not a move of the Host (50_host_interface.md
  R203): raised by `opLoad`. Safe: no claim speaks of such a launch. -/
  | loadTooLarge
  /-- The host operation `LOAD` with fewer bytes than its size (R203): raised by `opLoad`. Safe, as above. -/
  | loadTooShort
deriving DecidableEq, Repr

/-- The state right after power-on, which performs a `RESET` (70_reset_and_hazards.md R262): registers, `I` and
framebuffer zero, `pc` at 0x200, no fault; no byte of memory written yet, so that each holds `Config.memInit` (R37). -/
def State.reset : State where
  v := Vector.replicate 16 0
  i := 0
  pc := 0x200
  mem := []
  fb := blankFramebuffer
  fault := .noFault
  diag := []

end Sys2Proof.Machine
end

