-- ==== Sys2Proof/Machine/Ops.lean ====
section
/-! DEFINITION. The named operations over memory, registers, framebuffer and diagnostics channel; the fetch; taking a
fault and, beside it, the only way back from one. -/

namespace Sys2Proof.Machine

/-! ## Working memory (20_memory.md) -/

/-- The byte at an address of a memory over given power-on contents: the byte last written there, else the power-on
byte (R61, R67). -/
def Memory.readWith (init : Nat → Byte) : List Host.Cell → Nat → Byte
  | [], a => init a
  | (a', b) :: rest, a => if a = a' then b else Memory.readWith init rest a

/-- `MemRead(addr, 1)` (R53). Defined for addresses 0x000..0xFFF; its callers, `fetch` and `execDrawSprite`, test
their addresses first, and an address is never truncated or wrapped. -/
def Memory.read (m : List Host.Cell) (a : Nat) : Byte := Memory.readWith Config.memInit m a

/-- `MemWrite(addr, 1, v)` (R12), keeping the addresses rising and each listed once. A written byte is always listed:
no value is known to equal what power-on left there (assumption log 2). -/
def Memory.write : List Host.Cell → Nat → Byte → List Host.Cell
  | [], a, b => [(a, b)]
  | (a', b') :: rest, a, b =>
    if a < a' then (a, b) :: (a', b') :: rest
    else if a = a' then (a, b) :: rest
    else (a', b') :: Memory.write rest a b

/-- Bytes written at consecutive addresses from `a` up. -/
def Memory.writeBytes : List Host.Cell → Nat → List Byte → List Host.Cell
  | m, _, [] => m
  | m, a, b :: rest => Memory.writeBytes (Memory.write m a b) (a + 1) rest

/-- Every address is at least `lo`, inside working memory, and above those before it. -/
def Memory.wfFrom (lo : Nat) : List Host.Cell → Bool
  | [] => true
  | (a, _) :: rest => decide (lo ≤ a) && decide (a < Config.memSize) && Memory.wfFrom (a + 1) rest

/-- The canonical form of a memory: strictly rising addresses, all of them in 0x000..0xFFF (R50). -/
def Memory.wf (m : List Host.Cell) : Bool := Memory.wfFrom 0 m

/-! ## Registers (10_state.md R21 to R29) -/

/-- `V[x]` (R21). Every 4-bit index names a register (R84). -/
def readV (s : State) (x : RegIdx) : Byte := s.v[x.toNat]

/-- `V[x] <- b` (R21, R22): no other register changes. -/
def writeV (s : State) (x : RegIdx) (b : Byte) : State := { s with v := s.v.set x.toNat b }

/-- `I <- w` (R24). -/
def writeI (s : State) (w : Word) : State := { s with i := w }

/-- `pc <- w` (R26). -/
def writePc (s : State) (w : Word) : State := { s with pc := w }

/-- `pc <- (pc + k) mod 65536` (R29, R111). -/
def advanceBy (s : State) (k : Word) : State := writePc s (s.pc + k)

/-- The advance of every word but jump and a taken skip (R111). -/
def advance (s : State) : State := advanceBy s 2

/-! ## Framebuffer (R33, R59) -/

/-- `FB[sy][sx]`. -/
def readCell (fb : Framebuffer) (sy : Fin 32) (sx : Fin 64) : Bool := fb[sy][sx]

/-- `FB[sy][sx] <- b`. -/
def writeCell (fb : Framebuffer) (sy : Fin 32) (sx : Fin 64) (b : Bool) : Framebuffer :=
  fb.set sy.val (fb[sy].set sx.val b)

/-- `FB[sy][sx] <- FB[sy][sx] ^ b` (42_display.md R154). -/
def toggleCell (fb : Framebuffer) (sy : Fin 32) (sx : Fin 64) (b : Bool) : Framebuffer :=
  writeCell fb sy sx (readCell fb sy sx ^^ b)

/-- The framebuffer replaced whole. -/
def writeFb (s : State) (fb : Framebuffer) : State := { s with fb := fb }

/-! ## Diagnostics channel (50_host_interface.md R208) -/

/-- `Diag(cls, w)`: one event, after those emitted before. -/
def emitDiag (s : State) (cls : DiagClass) (w : Word) : State := { s with diag := s.diag ++ [⟨cls, w⟩] }

/-! ## Fetch (30_encoding.md R81) -/

/-- The fetch: the big-endian word at `pc`, or nothing when it would need a byte past 0xFFF. It changes no state. -/
def fetch (s : State) : Option Word :=
  if 0x0FFE < s.pc.toNat then none
  else some (wordOfBytes (Memory.read s.mem s.pc.toNat) (Memory.read s.mem (s.pc.toNat + 1)))

/-! ## Taking a fault, and reset (60_exceptions.md R233, R236, R237) -/

/-- The numeric code of a fault status (R31, R232). -/
def FaultStatus.code : FaultStatus → Nat
  | .noFault => 0
  | .fetchOutOfBounds => 1
  | .spriteReadOutOfBounds => 2

/-- Taking a fault (R233): the faulting step changes nothing except the fault status. No state is saved and control
goes nowhere (R236). -/
def raiseFault (cause : FaultStatus) (s : State) : Host.Outcome State Fault Refusal :=
  .next { s with fault := cause }

/-- The host operation `RESET` (R201, R260), the only way out of a faulted state (R237). Working memory is unchanged
(R261), and so are the events already emitted (assumption log 5). -/
def opReset (s : State) : State :=
  { State.reset with mem := s.mem, diag := s.diag }

end Sys2Proof.Machine
end

