-- ==== Sys2Proof/Machine/Operands.lean ====
section
/-! DEFINITION. How an instruction's fields become operands: immediates (30_encoding.md R84) and the sprite operands of
draw-sprite (42_display.md R151 to R153, R159). -/

namespace Sys2Proof.Machine

/-- `zext_16(NNN)`: the address immediate, zero-extended, neither scaled nor signed (R84). -/
def addressOperand (nnn : Field12) : Word := nnn.setWidth 16

/-- `x0 = V[X] mod 64`, the sprite's first column (R151, R153). -/
def startColumn (s : State) (x : RegIdx) : Nat := (readV s x).toNat % Config.fbWidth

/-- `y0 = V[Y] mod 32`, the sprite's first row (R151, R153). -/
def startRow (s : State) (y : RegIdx) : Nat := (readV s y).toNat % Config.fbHeight

/-- `sx = (x0 + c) mod 64` (R153). -/
def targetColumn (x0 c : Nat) : Fin 64 := ⟨(x0 + c) % 64, Nat.mod_lt _ (by decide)⟩

/-- `sy = (y0 + r) mod 32` (R153). -/
def targetRow (y0 r : Nat) : Fin 32 := ⟨(y0 + r) % 32, Nat.mod_lt _ (by decide)⟩

/-- `(b >> (7 - c)) & 1`: bit 7 of a row byte is its leftmost pixel (R152). -/
def spriteBit (b : Byte) (c : Nat) : Bool := b.getLsbD (7 - c)

/-- The address of sprite row `r`: `I + r` as an integer, which never wraps (R133, R151). -/
def spriteAddress (s : State) (r : Nat) : Nat := s.i.toNat + r

/-- The byte of sprite row `r` (R151). -/
def spriteByte (s : State) (r : Nat) : Byte := Memory.read s.mem (spriteAddress s r)

/-- The bounds test of draw-sprite: `N >= 1 and I + (N - 1) > 0x0FFF` (R151, R159). -/
def spriteOutOfBounds (s : State) (n : Nibble) : Bool :=
  decide (1 ≤ n.toNat ∧ 0x0FFF < spriteAddress s (n.toNat - 1))

end Sys2Proof.Machine
end

