-- ==== Sys2Proof/Machine/Flags.lean ====
section
/-! DEFINITION. The 8-bit arithmetic (41_register_alu.md R133), and where other machines would have flags: this
hardware has none, no carry, overflow, zero or collision flag (10_state.md R30), so no flag is computed anywhere. -/

namespace Sys2Proof.Machine

/-- 8-bit addition, `(a + b) mod 256`; no carry out is kept (R133, R131). -/
def addBytes (a b : Byte) : Byte := a + b

/-- 8-bit equality, the one comparison (R133). It leaves no trace but in `pc` (R30). -/
def bytesEqual (a b : Byte) : Bool := a == b

end Sys2Proof.Machine
end

