-- ==== Sys2Proof/Machine/Alu.lean ====
section
/-! DEFINITION. The register file and ALU instructions (41_register_alu.md). -/

namespace Sys2Proof.Machine

/-- load-immediate (R130): `V[X] <- NN`. -/
def execLoadImmediate (x : RegIdx) (nn : Byte) (s : State) : Host.Outcome State Fault Refusal :=
  .next (advance (writeV s x nn))

/-- add-immediate (R131): `V[X] <- (V[X] + NN) mod 256`; no flag, and `VF` only when it is the destination. -/
def execAddImmediate (x : RegIdx) (nn : Byte) (s : State) : Host.Outcome State Fault Refusal :=
  .next (advance (writeV s x (addBytes (readV s x) nn)))

/-- load-index (R132): `I <- zext_16(NNN)`, unchecked. -/
def execLoadIndex (nnn : Field12) (s : State) : Host.Outcome State Fault Refusal :=
  .next (advance (writeI s (addressOperand nnn)))

end Sys2Proof.Machine
end

