-- ==== Sys2Proof/Machine/Control.lean ====
section
/-! DEFINITION. Control transfer (40_cycle_control.md): jump and skip-if-equal, the whole of it (R114). -/

namespace Sys2Proof.Machine

/-- jump (R112): `pc <- zext_16(NNN)`. -/
def execJump (nnn : Field12) (s : State) : Host.Outcome State Fault Refusal :=
  .next (writePc s (addressOperand nnn))

/-- skip-if-equal (R113): `pc` advances by 4 when `V[X] == NN`, else by 2. The skipped word is not looked at. -/
def execSkipIfEqual (x : RegIdx) (nn : Byte) (s : State) : Host.Outcome State Fault Refusal :=
  .next (advanceBy s (if bytesEqual (readV s x) nn then 4 else 2))

end Sys2Proof.Machine
end

