-- ==== Sys2Proof/Machine/Display.lean ====
section
/-! DEFINITION. The display instructions and the sprite-blit engine (42_display.md). -/

namespace Sys2Proof.Machine

/-- One sprite row: for each column offset `c` of 0..7, the target cell toggled by the row byte's bit (R151). -/
def drawRow (x0 : Nat) (sy : Fin 32) (b : Byte) (fb : Framebuffer) : Framebuffer :=
  (List.range Config.spriteWidth).foldl (fun fb c => toggleCell fb sy (targetColumn x0 c) (spriteBit b c)) fb

/-- The rows 0 to `n - 1` of a sprite, in order, where row `r` is the byte `row r` (R151). -/
def drawRows (x0 y0 n : Nat) (row : Nat → Byte) (fb : Framebuffer) : Framebuffer :=
  (List.range n).foldl (fun fb r => drawRow x0 (targetRow y0 r) (row r) fb) fb

/-- clear-screen (R150): every cell 0. -/
def execClearScreen (s : State) : Host.Outcome State Fault Refusal :=
  .next (advance (writeFb s blankFramebuffer))

/-- draw-sprite (R151): the bounds test before any cell is written (R159), then the `N` rows toggled onto the
framebuffer, wrapping at both edges. No register, no collision flag (R155), and `I` unchanged (R160). -/
def execDrawSprite (x y : RegIdx) (n : Nibble) (s : State) : Host.Outcome State Fault Refusal :=
  if spriteOutOfBounds s n then raiseFault .spriteReadOutOfBounds s
  else .next (advance (writeFb s (drawRows (startColumn s x) (startRow s y) n.toNat (spriteByte s) s.fb)))

end Sys2Proof.Machine
end

