-- ==== Sys2Proof/Machine/Unsupported.lean ====
section
/-! DEFINITION. The unsupported words (43_unsupported.md): each is a two-byte no-operation that emits one diagnostic
event. Their canonical CHIP-8 meanings are not meanings here (R192). -/

namespace Sys2Proof.Machine

/-- The common behaviour (R180): one event, and `pc` advanced by 2. -/
def unsupported (cls : DiagClass) (w : Word) (s : State) : Host.Outcome State Fault Refusal :=
  .next (advance (emitDiag s cls w))

/-- return (R181): class `return`. There is no stack to pop. -/
def execRet (s : State) : Host.Outcome State Fault Refusal := unsupported .ret (encode .ret) s

/-- call (R182): class `call`. It pushes nothing and does not jump. -/
def execCall (nnn : Field12) (s : State) : Host.Outcome State Fault Refusal :=
  unsupported .call (encode (.call nnn)) s

/-- misc (R183): class `misc`, with no sub-decode of the low byte. -/
def execMisc (payload : Field12) (s : State) : Host.Outcome State Fault Refusal :=
  unsupported .misc (encode (.misc payload)) s

/-- unknown-0 (R184): class `unknown`. -/
def execUnknown0 (payload : Field12) (s : State) : Host.Outcome State Fault Refusal :=
  unsupported .unknown (encode (.unknown0 payload)) s

/-- unknown-4 (R185): class `unknown`; it never skips. -/
def execUnknown4 (payload : Field12) (s : State) : Host.Outcome State Fault Refusal :=
  unsupported .unknown (encode (.unknown4 payload)) s

/-- unknown-5 (R186): class `unknown`; it never skips. -/
def execUnknown5 (payload : Field12) (s : State) : Host.Outcome State Fault Refusal :=
  unsupported .unknown (encode (.unknown5 payload)) s

/-- unknown-8 (R187): class `unknown`; no register changes. -/
def execUnknown8 (payload : Field12) (s : State) : Host.Outcome State Fault Refusal :=
  unsupported .unknown (encode (.unknown8 payload)) s

/-- unknown-9 (R188): class `unknown`; it never skips. -/
def execUnknown9 (payload : Field12) (s : State) : Host.Outcome State Fault Refusal :=
  unsupported .unknown (encode (.unknown9 payload)) s

/-- unknown-B (R189): class `unknown`; it never jumps. -/
def execUnknownB (payload : Field12) (s : State) : Host.Outcome State Fault Refusal :=
  unsupported .unknown (encode (.unknownB payload)) s

/-- unknown-C (R190): class `unknown`; no random number. -/
def execUnknownC (payload : Field12) (s : State) : Host.Outcome State Fault Refusal :=
  unsupported .unknown (encode (.unknownC payload)) s

/-- unknown-E (R191): class `unknown`; no key is sampled. -/
def execUnknownE (payload : Field12) (s : State) : Host.Outcome State Fault Refusal :=
  unsupported .unknown (encode (.unknownE payload)) s

end Sys2Proof.Machine
end

