-- ==== Sys2Proof/Machine/Dispatch.lean ====
section
/-! DEFINITION. One arm per constructor of `Instr`, each one call of that instruction's meaning. -/

namespace Sys2Proof.Machine

/-- The execution of a decoded instruction (40_cycle_control.md R110). -/
def exec (i : Instr) (s : State) : Host.Outcome State Fault Refusal :=
  match i with
  | .clearScreen => Sys2Proof.Machine.execClearScreen s
  | .ret => Sys2Proof.Machine.execRet s
  | .unknown0 payload => Sys2Proof.Machine.execUnknown0 payload s
  | .jump nnn => Sys2Proof.Machine.execJump nnn s
  | .call nnn => Sys2Proof.Machine.execCall nnn s
  | .skipIfEqual x nn => Sys2Proof.Machine.execSkipIfEqual x nn s
  | .unknown4 payload => Sys2Proof.Machine.execUnknown4 payload s
  | .unknown5 payload => Sys2Proof.Machine.execUnknown5 payload s
  | .loadImmediate x nn => Sys2Proof.Machine.execLoadImmediate x nn s
  | .addImmediate x nn => Sys2Proof.Machine.execAddImmediate x nn s
  | .unknown8 payload => Sys2Proof.Machine.execUnknown8 payload s
  | .unknown9 payload => Sys2Proof.Machine.execUnknown9 payload s
  | .loadIndex nnn => Sys2Proof.Machine.execLoadIndex nnn s
  | .unknownB payload => Sys2Proof.Machine.execUnknownB payload s
  | .unknownC payload => Sys2Proof.Machine.execUnknownC payload s
  | .drawSprite x y n => Sys2Proof.Machine.execDrawSprite x y n s
  | .unknownE payload => Sys2Proof.Machine.execUnknownE payload s
  | .misc payload => Sys2Proof.Machine.execMisc payload s

end Sys2Proof.Machine
end

