-- ==== Sys2Proof/Machine/Step.lean ====
section
/-! DEFINITION. One step of the Engine (40_cycle_control.md R110), and placing an instruction where the next step
fetches it. -/

namespace Sys2Proof.Machine

/-- One step (R110): no step when faulted; the fetch, which may take `FetchOutOfBounds`; decode; execute. -/
def step (s : State) : Host.Outcome State Fault Refusal :=
  if s.fault = .noFault then
    match fetch s with
    | none => raiseFault .fetchOutOfBounds s
    | some w => exec (decodeWord w) s
  else .fault (.engineStopped s.fault)

/-- `s` with one instruction, in the opcode table's numbering, stored where `step` fetches next. Where the next step
could fetch nothing, that is mended too: the fault status is cleared, and a `pc` past 0x0FFE is put at the load
address; at any other state both are left as they are. The store stands for the host's `LOAD` (assumption log 6). -/
def State.withFetchWord (s : State) (nbits w : Nat) : State :=
  let pc := if 0x0FFE < s.pc.toNat then 0x200 else s.pc
  { s with mem := Memory.writeBytes s.mem pc.toNat (tableBytes nbits w), pc := pc, fault := .noFault }

end Sys2Proof.Machine
end

