-- ==== Sys2Proof/Machine/HostOps.lean ====
section
/-! DEFINITION. The operations of the Host (50_host_interface.md R200), each one atomic transaction on the state, never
during a `RUN` (R209). `RESET` is `opReset` in Machine/Ops.lean. -/

namespace Sys2Proof.Machine

/-- `LOAD(bytes, size)` (R202): `size` bytes into memory from 0x200 up, and `pc` at 0x200. Outside its precondition it
is refused (R203). -/
def opLoad (bytes : List Byte) (size : Nat) (s : State) : Host.Outcome State Fault Refusal :=
  if Config.maxProg < size then .refused .loadTooLarge
  else if bytes.length < size then .refused .loadTooShort
  else .next (writePc { s with mem := Memory.writeBytes s.mem Config.progBase (bytes.take size) } 0x200)

/-- `CLEAR` (R207): clear-screen's framebuffer effect without the advance of `pc`. -/
def opClear (s : State) : State := writeFb s blankFramebuffer

/-- `RUN(n)` (R204): `n` steps, stopping early where the Engine has no step. It returns no error value. -/
def opRun : Nat → State → State
  | 0, s => s
  | n + 1, s =>
    match step s with
    | .next t => opRun n t
    | .fault _ => s
    | .refused _ => s

/-- `SCREEN` (R205): 2048 bytes, element `sy * 64 + sx` being 1 or 0 as `FB[sy][sx]` is (R34). -/
def screenView (s : State) : Vector Byte 2048 :=
  Vector.ofFn (fun k : Fin 2048 =>
    if readCell s.fb ⟨k.val / 64, by omega⟩ ⟨k.val % 64, by omega⟩ then 0x01 else 0x00)

/-- `WIDTH` (R206). -/
def screenWidth : Nat := Config.fbWidth

/-- `HEIGHT` (R206). -/
def screenHeight : Nat := Config.fbHeight

/-- The host operations (R200). -/
inductive HostOp where
  | reset
  | load (bytes : List Byte) (size : Nat)
  | clear
  | run (n : Nat)
  | screen
  | width
  | height
deriving DecidableEq, Repr

/-- What a host operation does to the state. -/
def hostOp (op : HostOp) (s : State) : Host.Outcome State Fault Refusal :=
  match op with
  | .reset => .next (opReset s)
  | .load bytes size => opLoad bytes size s
  | .clear => .next (opClear s)
  | .run n => .next (opRun n s)
  | .screen => .next s
  | .width => .next s
  | .height => .next s

/-- What a host operation returns (R213). -/
inductive HostReply where
  | nothing
  | number (n : Nat)
  | view (bytes : Vector Byte 2048)
deriving DecidableEq, Repr

/-- The reply of a host operation issued at `s` (R213): `RUN` returns no error value. -/
def hostReply (op : HostOp) (s : State) : HostReply :=
  match op with
  | .reset => .nothing
  | .load _ _ => .nothing
  | .clear => .nothing
  | .run _ => .nothing
  | .screen => .view (screenView s)
  | .width => .number screenWidth
  | .height => .number screenHeight

end Sys2Proof.Machine
end

