-- ==== Sys2Proof/Machine/Report.lean ====
section
/-! DEFINITION. What a step reports to a reader: the three outcomes of 00_scope.md R13, with the information that
60_exceptions.md R232 records with a fault. It is read off the state before the step and stored nowhere. -/

namespace Sys2Proof.Machine

/-- What is recorded with a fault (R232). -/
inductive FaultInfo where
  /-- `FetchOutOfBounds`, with the value of `pc`. -/
  | fetchOutOfBounds (pc : Word)
  /-- `SpriteReadOutOfBounds`, with `I`, `N` and the `pc` of the draw-sprite. -/
  | spriteReadOutOfBounds (i : Word) (n : Nibble) (pc : Word)
deriving DecidableEq, Repr

/-- The outcome of a step (R13). -/
inductive StepReport where
  /-- An implemented instruction took effect. -/
  | executed
  /-- A no-operation word, with its diagnostic event. -/
  | unsupported (event : DiagEvent)
  /-- A fault was taken. -/
  | fault (info : FaultInfo)
deriving DecidableEq, Repr

/-- The diagnostic class of a decode class; the seven implemented classes report nothing (R93). -/
def diagClass : Instr → Option DiagClass
  | .clearScreen => none
  | .ret => some .ret
  | .unknown0 _ => some .unknown
  | .jump _ => none
  | .call _ => some .call
  | .skipIfEqual _ _ => none
  | .unknown4 _ => some .unknown
  | .unknown5 _ => some .unknown
  | .loadImmediate _ _ => none
  | .addImmediate _ _ => none
  | .unknown8 _ => some .unknown
  | .unknown9 _ => some .unknown
  | .loadIndex _ => none
  | .unknownB _ => some .unknown
  | .unknownC _ => some .unknown
  | .drawSprite _ _ _ => none
  | .unknownE _ => some .unknown
  | .misc _ => some .misc

/-- Whether executing the instruction takes a fault: only a draw-sprite can (R110, R235). -/
def instrFault (i : Instr) (s : State) : Option FaultInfo :=
  match i with
  | .drawSprite _ _ n => if spriteOutOfBounds s n then some (.spriteReadOutOfBounds s.i n s.pc) else none
  | .clearScreen | .ret | .unknown0 _ | .jump _ | .call _ | .skipIfEqual _ _ | .unknown4 _ | .unknown5 _
  | .loadImmediate _ _ | .addImmediate _ _ | .unknown8 _ | .unknown9 _ | .loadIndex _ | .unknownB _ | .unknownC _
  | .unknownE _ | .misc _ => none

/-- The report of executing the fetched word `w`. -/
def wordReport (w : Word) (s : State) : StepReport :=
  match instrFault (decodeWord w) s with
  | some info => .fault info
  | none =>
    match diagClass (decodeWord w) with
    | some cls => .unsupported ⟨cls, w⟩
    | none => .executed

/-- The report of a step; nothing where the Engine has no step (R110, R233). -/
def stepReport (s : State) : Option StepReport :=
  if s.fault = .noFault then
    match fetch s with
    | none => some (.fault (.fetchOutOfBounds s.pc))
    | some w => some (wordReport w s)
  else none

end Sys2Proof.Machine
end

