-- ==== Sys2Proof/Safety.lean ====
section
/-! DEFINITION. What counts as a safe run, and the terms in which claims about all states are made. -/

namespace Sys2Proof.Machine

/-- A state that is no failure: no fault since the last `RESET` (60_exceptions.md R233). -/
abbrev Safe (s : State) : Prop := s.fault = .noFault

/-- The invariant of the machine: memory in canonical form, `I <= 0x0FFF` (10_state.md R25), `pc <= 0x1002` (R29). -/
abbrev Inv (s : State) : Prop :=
  Memory.wf s.mem = true ∧ s.i.toNat ≤ 0x0FFF ∧ s.pc.toNat ≤ 0x1002

/-- The states a host can reach (R262, R209): power-on, then host operations that are moves of the Host, in any order
and number. -/
inductive Reachable : State → Prop where
  | powerOn : Reachable State.reset
  | move (op : HostOp) {s t : State} (h : Reachable s) (e : hostOp op s = .next t) : Reachable t

/-- `pc` of `t` is `pc` of `s` plus `k`, modulo 65536 (R29). -/
abbrev AdvancedBy (k : Nat) (s t : State) : Prop := t.pc.toNat = (s.pc.toNat + k) % 65536

/-- The byte at every address reads in `t` as in `s`. -/
abbrev SameMemory (s t : State) : Prop := ∀ a, Memory.read t.mem a = Memory.read s.mem a

/-- Every cell of the framebuffer reads in `t` as in `s`. -/
abbrev SameCells (s t : State) : Prop := ∀ sy sx, readCell t.fb sy sx = readCell s.fb sy sx

/-- The two bytes at `pc`, high byte first: what a fetch reads (R81). -/
abbrev bytesAtPc (s : State) : List Byte :=
  [Memory.read s.mem s.pc.toNat, Memory.read s.mem (s.pc.toNat + 1)]

/-- The two bytes at `pc` decode to the instruction `i` (R81, R85). -/
abbrev DecodesAtPc (s : State) (i : Instr) : Prop := ∃ rest, decode (bytesAtPc s) = .ok (i, rest)

/-- What a report says of the step from `s` to `t` (00_scope.md R13; 60_exceptions.md R232, R233). Every item of a
report is tied to the state before the step: the event to the class and the word of the instruction at `pc`, a fault's
`pc` and `I` to those registers, and its `N` to the draw-sprite at `pc`. -/
def ReportAgrees (s t : State) : StepReport → Prop
  | .executed => (∃ i, DecodesAtPc s i ∧ diagClass i = none) ∧ t.fault = .noFault ∧ t.diag = s.diag
  | .unsupported event =>
    (∃ i, DecodesAtPc s i ∧ diagClass i = some event.cls ∧ encode i = event.word) ∧
      t = { s with pc := s.pc + 2, diag := s.diag ++ [event] }
  | .fault (.fetchOutOfBounds pc) => pc = s.pc ∧ 0x0FFE < pc.toNat ∧ t = { s with fault := .fetchOutOfBounds }
  | .fault (.spriteReadOutOfBounds i n pc) =>
    i = s.i ∧ pc = s.pc ∧ (∃ x y, DecodesAtPc s (.drawSprite x y n)) ∧
      1 ≤ n.toNat ∧ 0x0FFF < i.toNat + (n.toNat - 1) ∧ t = { s with fault := .spriteReadOutOfBounds }

end Sys2Proof.Machine
end

