-- ==== Sys2Proof/Certificates/Slice0/Obligations.lean ====
section
/-! DEFINITION. The statements for the provers, one definition each, listed in OBLIGATIONS.json. A docstring says which
rule a statement formalises, and which clause of it rests on a decision of the spec's own (92_eei_decisions.md) or on
a choice of the model (notes/assumptions). Where a conclusion is `t = { s with … := t.…, … }`, it says that `t` is `s`
in every field but those named. -/

open Sys2Proof Sys2Proof.Machine

/-! ## Encoding and decoding -/

/-- The decoder inverts the encoder on every well-formed instruction, with every operand at every value, and leaves
the bytes after it (30_encoding.md sections 2 and 3). The choice of the full-word match for family 0 is the spec's own
decision (D15). -/
def Obligations.DecodeInvertsEncode : Prop :=
  ∀ (i : Instr) (rest : List Byte), WellFormed i = true → decode (encodeBytes i ++ rest) = .ok (i, rest)

/-- The encoder inverts the decoder on every word, and every word decodes to a well-formed instruction (30_encoding.md
section 3): no bit of a word is dropped. -/
def Obligations.EncodeInvertsDecode : Prop :=
  ∀ w : Word, encode (decodeWord w) = w ∧ WellFormed (decodeWord w) = true

/-- The decoder and spec/opcode_table.json, read by mask, match and priority, name the same instruction for all 65536
words (30_encoding.md, opening paragraph and section 3). -/
def Obligations.DecoderAgreesWithOpcodeTable : Prop :=
  ∀ w : Word, tableMnemonic w = some (decodeWord w).mnemonic

/-- The diagnostic class of every word, by its bits: the two exact words, the six implemented families, call, misc,
and unknown for all others (30_encoding.md sections 3 and 4). The full-word match (D15) and the names of the classes
(D11) are the spec's own decisions. -/
def Obligations.DiagnosticClassOfEveryWord : Prop :=
  ∀ w : Word, diagClass (decodeWord w) =
    if w = 0x00E0 then none
    else if w = 0x00EE then some .ret
    else if fieldOp w ∈ [0x1, 0x3, 0x6, 0x7, 0xA, 0xD] then none
    else if fieldOp w = 0x2 then some .call
    else if fieldOp w = 0xF then some .misc
    else some .unknown

/-- The worked-example words of the spec's instruction rules decode as the rules say (files 40 to 43). -/
def Obligations.WorkedExampleWordsDecode : Prop :=
  decodeWord 0x00E0 = .clearScreen ∧ decodeWord 0x00EE = .ret ∧ decodeWord 0x0000 = .unknown0 0x000 ∧
  decodeWord 0x1234 = .jump 0x234 ∧ decodeWord 0x2123 = .call 0x123 ∧ decodeWord 0x332A = .skipIfEqual 3 0x2A ∧
  decodeWord 0x4A05 = .unknown4 0xA05 ∧ decodeWord 0x5120 = .unknown5 0x120 ∧
  decodeWord 0x6005 = .loadImmediate 0 0x05 ∧ decodeWord 0x710A = .addImmediate 1 0x0A ∧
  decodeWord 0x8124 = .unknown8 0x124 ∧ decodeWord 0x9120 = .unknown9 0x120 ∧ decodeWord 0xA210 = .loadIndex 0x210 ∧
  decodeWord 0xB300 = .unknownB 0x300 ∧ decodeWord 0xC0FF = .unknownC 0x0FF ∧
  decodeWord 0xD011 = .drawSprite 0 1 1 ∧ decodeWord 0xE09E = .unknownE 0x09E ∧ decodeWord 0xF00A = .misc 0x00A

/-! ## The step -/

/-- When the Engine is unfaulted, `pc` is at most 0x0FFE and the two bytes at `pc` decode to an instruction, the step
is the execution of that instruction and nothing around it (40_cycle_control.md section 1). -/
def Obligations.StepRunsTheDecodedInstruction : Prop :=
  ∀ (s : State) (i : Instr) (rest : List Byte), s.fault = .noFault → s.pc.toNat ≤ 0x0FFE →
    decode (bytesAtPc s) = .ok (i, rest) → step s = exec i s

/-- The fetch composes the bytes at `pc` and `pc + 1` big-endian, at any `pc` even or odd up to 0x0FFE, and finds
nothing at any other `pc`, 0xFFFF included (30_encoding.md section 1). The bounds test is the spec's own decision
(D4); that an odd `pc` is legal is its decision D13. -/
def Obligations.FetchIsBigEndianInBounds : Prop :=
  ∀ s : State,
    (0x0FFE < s.pc.toNat → fetch s = none) ∧
    (s.pc.toNat ≤ 0x0FFE → ∃ w, fetch s = some w ∧
      w.toNat = (Memory.read s.mem s.pc.toNat).toNat * 256 + (Memory.read s.mem (s.pc.toNat + 1)).toNat)

/-- Every step of an unfaulted Engine answers a next state, and only a faulted Engine stops: no word halts, traps or
is refused (30_encoding.md section 4, 60_exceptions.md section 1). That a faulting step is a next state with the fault
status written, and the step of a faulted Engine a stop, is the model's reading of the spec's own fault (assumption
log 3; D7). -/
def Obligations.EveryWordExecutes : Prop :=
  ∀ s : State,
    (s.fault = .noFault → ∃ t, step s = .next t) ∧
    (s.fault ≠ .noFault → step s = .fault (.engineStopped s.fault))

/-- How each instruction leaves `pc` (10_state.md section 4, the table of next `pc`s; the table is the spec's
inference from its instruction rules, the wrap its decision D20, the faulting row its decision D5). -/
def Obligations.NextPcOfEveryInstruction : Prop :=
  ∀ (i : Instr) (s t : State), exec i s = .next t →
    t.pc.toNat =
      match i with
      | .jump nnn => nnn.toNat
      | .skipIfEqual x nn => if readV s x = nn then (s.pc.toNat + 4) % 65536 else (s.pc.toNat + 2) % 65536
      | .drawSprite _ _ n =>
        if 1 ≤ n.toNat ∧ 0x0FFF < s.i.toNat + (n.toNat - 1) then s.pc.toNat else (s.pc.toNat + 2) % 65536
      | _ => (s.pc.toNat + 2) % 65536

/-! ## The implemented instructions: result, completion and frame -/

/-- jump (40_cycle_control.md section 2): `pc` becomes the zero-extended field, whatever it was before, odd or in the
reserved area; nothing else changes; a jump to its own address is a fixed point of the whole state. The last clause of
the first part, that a jump to 0xFFF faults at the next fetch, rests on the spec's own decision D4. -/
def Obligations.JumpSetsPcToItsField : Prop :=
  (∀ (nnn : Field12) (s : State), ∃ t, exec (.jump nnn) s = .next t ∧
    t.pc.toNat = nnn.toNat ∧ t = { s with pc := t.pc } ∧
    (s.pc.toNat = nnn.toNat → t = s) ∧
    (nnn = 0xFFF → s.fault = .noFault → step t = .next { t with fault := .fetchOutOfBounds })) ∧
  (∀ w : Word, fieldOp w = 0x1 → decodeWord w = .jump (w.extractLsb' 0 12))

/-- skip-if-equal (40_cycle_control.md section 3): `pc` advances by 4 when `V[X]` is `NN` and by 2 when it is not, and
nothing else changes, so no event is emitted for a skipped word. The clause that a taken skip at 0x0FFC to 0x0FFE
faults at the next fetch rests on the spec's own decision D4, the wrap of `pc` on its decision D20. -/
def Obligations.SkipIfEqualAdvancesByTwoOrFour : Prop :=
  (∀ (x : RegIdx) (nn : Byte) (s : State), ∃ t, exec (.skipIfEqual x nn) s = .next t ∧
    t = { s with pc := t.pc } ∧
    (readV s x = nn → AdvancedBy 4 s t) ∧ (readV s x ≠ nn → AdvancedBy 2 s t) ∧
    (readV s x = nn → s.fault = .noFault → 0x0FFC ≤ s.pc.toNat → s.pc.toNat ≤ 0x0FFE →
      step t = .next { t with fault := .fetchOutOfBounds })) ∧
  (∀ w : Word, fieldOp w = 0x3 → decodeWord w = .skipIfEqual (w.extractLsb' 8 4) (w.extractLsb' 0 8))

/-- load-immediate (41_register_alu.md R130): `V[X]` becomes `NN`, `VF` like any other; no other register changes;
`pc` advances by 2; nothing else changes. -/
def Obligations.LoadImmediateStoresItsByte : Prop :=
  (∀ (x : RegIdx) (nn : Byte) (s : State), ∃ t, exec (.loadImmediate x nn) s = .next t ∧
    readV t x = nn ∧ (∀ r, r ≠ x → readV t r = readV s r) ∧
    AdvancedBy 2 s t ∧ t = { s with v := t.v, pc := t.pc }) ∧
  (∀ w : Word, fieldOp w = 0x6 → decodeWord w = .loadImmediate (w.extractLsb' 8 4) (w.extractLsb' 0 8))

/-- add-immediate (41_register_alu.md section 2): `V[X]` becomes the sum modulo 256 of its old value and `NN`; no other
register changes, so `VF` gets no carry; `pc` advances by 2; nothing else changes. That adding 0xFF decrements is an
inference the spec marks as its own. -/
def Obligations.AddImmediateWrapsWithoutCarry : Prop :=
  (∀ (x : RegIdx) (nn : Byte) (s : State), ∃ t, exec (.addImmediate x nn) s = .next t ∧
    (readV t x).toNat = ((readV s x).toNat + nn.toNat) % 256 ∧
    (nn = 0xFF → readV t x = readV s x - 1) ∧
    (∀ r, r ≠ x → readV t r = readV s r) ∧
    AdvancedBy 2 s t ∧ t = { s with v := t.v, pc := t.pc }) ∧
  (∀ w : Word, fieldOp w = 0x7 → decodeWord w = .addImmediate (w.extractLsb' 8 4) (w.extractLsb' 0 8))

/-- load-index (41_register_alu.md R132): `I` becomes the zero-extended field, unchecked; `pc` advances by 2; nothing
else changes. -/
def Obligations.LoadIndexStoresItsField : Prop :=
  (∀ (nnn : Field12) (s : State), ∃ t, exec (.loadIndex nnn) s = .next t ∧
    t.i.toNat = nnn.toNat ∧ AdvancedBy 2 s t ∧ t = { s with i := t.i, pc := t.pc }) ∧
  (∀ w : Word, fieldOp w = 0xA → decodeWord w = .loadIndex (w.extractLsb' 0 12))

/-- clear-screen (42_display.md section 1): every cell 0 whatever it was, `pc` advanced by 2, nothing else changed; only
the exact word 0x00E0 is clear-screen, and 0x00E1, 0x01E0 and 0x10E0 are two unknown words and a jump. That 0x00E0
alone is clear-screen, and so that 0x01E0 is unknown, is the full-word match, the spec's own decision D15 (assumption
log 11). -/
def Obligations.ClearScreenZeroesEveryCell : Prop :=
  (∀ s : State, ∃ t, exec .clearScreen s = .next t ∧
    (∀ sy sx, readCell t.fb sy sx = false) ∧ AdvancedBy 2 s t ∧ t = { s with fb := t.fb, pc := t.pc }) ∧
  (∀ w : Word, decodeWord w = .clearScreen ↔ w = 0x00E0) ∧
  decodeWord 0x00E1 = .unknown0 0x0E1 ∧ decodeWord 0x01E0 = .unknown0 0x1E0 ∧ decodeWord 0x10E0 = .jump 0x0E0

/-- draw-sprite in bounds (42_display.md section 2): for each row `r` and column offset `c` the cell at row
`(V[Y] mod 32 + r) mod 32` and column `(V[X] mod 64 + c) mod 64` is exclusive-ored with bit `7 - c` of the byte at
`I + r`; every other cell is unchanged; `pc` advances by 2; nothing else changes. The bounds in the hypothesis are the
spec's own decision D5. That no two pairs `(r, c)` reach one cell is part of what this says. Every word of family D is
the draw-sprite of its own `X = w[11:8]`, `Y = w[7:4]` and `N = w[3:0]`. -/
def Obligations.DrawSpriteTogglesItsCells : Prop :=
  (∀ (x y : RegIdx) (n : Nibble) (s : State), n.toNat = 0 ∨ s.i.toNat + (n.toNat - 1) ≤ 0x0FFF →
    ∃ t, exec (.drawSprite x y n) s = .next t ∧
      AdvancedBy 2 s t ∧ t = { s with fb := t.fb, pc := t.pc } ∧
      (∀ (r c : Nat) (sy : Fin 32) (sx : Fin 64), r < n.toNat → c < 8 →
        sy.val = ((readV s y).toNat % 32 + r) % 32 → sx.val = ((readV s x).toNat % 64 + c) % 64 →
        readCell t.fb sy sx = (readCell s.fb sy sx ^^ (Memory.read s.mem (s.i.toNat + r)).getLsbD (7 - c))) ∧
      (∀ (sy : Fin 32) (sx : Fin 64),
        (∀ r c : Nat, r < n.toNat → c < 8 →
          ¬ (sy.val = ((readV s y).toNat % 32 + r) % 32 ∧ sx.val = ((readV s x).toNat % 64 + c) % 64)) →
        readCell t.fb sy sx = readCell s.fb sy sx)) ∧
  (∀ w : Word, fieldOp w = 0xD →
    decodeWord w = .drawSprite (w.extractLsb' 8 4) (w.extractLsb' 4 4) (w.extractLsb' 0 4))

/-- draw-sprite out of bounds (42_display.md section 2, 60_exceptions.md section 2): with `N >= 1` and
`I + N - 1 > 0x0FFF` it takes `SpriteReadOutOfBounds` before any cell is written, changing nothing but the fault
status; in an unfaulted state it does so in no other case; and with `I` at most 0x0FFF the fault needs `I` at least
0x0FF2. The fault is the spec's own decision D5, its shape decision D7 and assumption log 3. -/
def Obligations.DrawSpriteFaultsBeforeDrawing : Prop :=
  ∀ (x y : RegIdx) (n : Nibble) (s : State),
    (1 ≤ n.toNat → 0x0FFF < s.i.toNat + (n.toNat - 1) →
      exec (.drawSprite x y n) s = .next { s with fault := .spriteReadOutOfBounds }) ∧
    (s.fault = .noFault → exec (.drawSprite x y n) s = .next { s with fault := .spriteReadOutOfBounds } →
      1 ≤ n.toNat ∧ 0x0FFF < s.i.toNat + (n.toNat - 1) ∧ (s.i.toNat ≤ 0x0FFF → 0x0FF2 ≤ s.i.toNat))

/-- `N = 0` draws nothing (42_display.md R156): no cell changes and no fault is taken whatever `I` is, and `pc`
advances by 2; the next state is the same for every memory but for the memory itself, so no byte is read. -/
def Obligations.DrawSpriteOfNoRows : Prop :=
  ∀ (x y : RegIdx) (s : State), exec (.drawSprite x y 0) s = .next { s with pc := s.pc + 2 }

/-- No collision flag (42_display.md R155): no draw-sprite, whatever its registers, `VF` among them, and whatever cells
it erases, writes any general register; and a coordinate register is read as one whatever its number, `VF` among them:
the cells drawn depend on the values of `V[X]` and `V[Y]` and not on which registers they are. -/
def Obligations.DrawSpriteWritesNoRegister : Prop :=
  (∀ (x y : RegIdx) (n : Nibble) (s t : State), exec (.drawSprite x y n) s = .next t →
    ∀ r, readV t r = readV s r) ∧
  (∀ (x y x' y' : RegIdx) (n : Nibble) (s t t' : State), readV s x = readV s x' → readV s y = readV s y' →
    exec (.drawSprite x y n) s = .next t → exec (.drawSprite x' y' n) s = .next t' → t = t')

/-- Congruent coordinates draw at the same place (42_display.md section 2): column registers congruent modulo 64 and
row registers congruent modulo 32 give the same framebuffer from the same framebuffer, `I` and memory. -/
def Obligations.CongruentCoordinatesDrawAlike : Prop :=
  ∀ (x y x' y' : RegIdx) (n : Nibble) (s s' t t' : State),
    s'.fb = s.fb → s'.i = s.i → SameMemory s s' →
    (readV s' x').toNat % 64 = (readV s x).toNat % 64 → (readV s' y').toNat % 32 = (readV s y).toNat % 32 →
    exec (.drawSprite x y n) s = .next t → exec (.drawSprite x' y' n) s' = .next t' → t'.fb = t.fb

/-- A sprite drawn twice erases itself (42_display.md section 2; the spec's inference from its toggle rule): the same
draw-sprite at any later state with the same operands, the same sprite bytes and the framebuffer the first left
restores the framebuffer exactly. -/
def Obligations.SpriteDrawnTwiceErasesItself : Prop :=
  ∀ (x y : RegIdx) (n : Nibble) (s t s' t' : State),
    exec (.drawSprite x y n) s = .next t →
    s'.fb = t.fb → s'.i = s.i → readV s' x = readV s x → readV s' y = readV s y →
    (∀ r, r < n.toNat → Memory.read s'.mem (s.i.toNat + r) = Memory.read s.mem (s.i.toNat + r)) →
    exec (.drawSprite x y n) s' = .next t' → t'.fb = s.fb

/-! ## The unsupported words -/

/-- Every unsupported instruction (43_unsupported.md section 1: return, call, misc, and the eight unknown classes): one
diagnostic event with its class and its whole word, `pc` advanced by 2, and nothing else. The names of the classes are
the spec's own decision D11; that the event is kept in the state is the model's choice (assumption log 4). -/
def Obligations.UnsupportedInstructionsOnlyReport : Prop :=
  ∀ (i : Instr) (cls : DiagClass) (s : State), diagClass i = some cls →
    exec i s = .next { s with pc := s.pc + 2, diag := s.diag ++ [⟨cls, encode i⟩] }

/-- return, call and misc, by their words (43_unsupported.md section 2): the exact word 0x00EE, every 0x2NNN and every
0xFNNN execute as one event with the word itself and `pc + 2`; 0x00EF and 0x01EE are unknown words. That 0x00EE alone
is return, and so that 0x01EE is unknown, is the spec's own decision D15 (assumption log 11), the names of the classes
its decision D11; that the event is kept in the state is the model's choice (assumption log 4). -/
def Obligations.ReturnCallMiscAreReportedNoOps : Prop :=
  (∀ s : State, exec (decodeWord 0x00EE) s = .next { s with pc := s.pc + 2, diag := s.diag ++ [⟨.ret, 0x00EE⟩] }) ∧
  (∀ w : Word, decodeWord w = .ret ↔ w = 0x00EE) ∧
  (∀ (w : Word) (s : State), fieldOp w = 0x2 →
    exec (decodeWord w) s = .next { s with pc := s.pc + 2, diag := s.diag ++ [⟨.call, w⟩] }) ∧
  (∀ (w : Word) (s : State), fieldOp w = 0xF →
    exec (decodeWord w) s = .next { s with pc := s.pc + 2, diag := s.diag ++ [⟨.misc, w⟩] }) ∧
  decodeWord 0x00EF = .unknown0 0x0EF ∧ decodeWord 0x01EE = .unknown0 0x1EE

/-- The eight unknown families, by their words (43_unsupported.md section 3): every 0x0NNN but the two exact words,
and every word of families 4, 5, 8, 9, B, C and E, executes as one event of class `unknown` with the word itself and
`pc + 2`: no skip, no jump, no register changed, no random number, no key. That every other 0x0NNN is unknown is the
spec's own decision D15 (assumption log 11), the name of the class its decision D11; that the event is kept in the
state is the model's choice (assumption log 4). -/
def Obligations.UnknownFamiliesAreReportedNoOps : Prop :=
  ∀ (w : Word) (s : State),
    (fieldOp w = 0x0 ∧ w ≠ 0x00E0 ∧ w ≠ 0x00EE) ∨ fieldOp w ∈ [0x4, 0x5, 0x8, 0x9, 0xB, 0xC, 0xE] →
    exec (decodeWord w) s = .next { s with pc := s.pc + 2, diag := s.diag ++ [⟨.unknown, w⟩] }

/-! ## What each kind of state is changed by -/

/-- The registers (10_state.md section 2): none is hard-wired or aliased, and the only instructions that write one
write their own `X`: load-immediate and add-immediate. Every other instruction, draw-sprite included, leaves all
sixteen, `VF` included, as they were. Which instruction writes which register is that section's table, an inference of
the spec from its instruction rules (41_register_alu.md sections 1 and 2). -/
def Obligations.RegistersChangeOnlyByTheirOwnInstruction : Prop :=
  (∀ (s : State) (x r : RegIdx) (b : Byte), readV (writeV s x b) r = if r = x then b else readV s r) ∧
  (∀ (i : Instr) (s t : State), exec i s = .next t →
    ∀ r, readV t r =
      match i with
      | .loadImmediate x nn => if r = x then nn else readV s r
      | .addImmediate x nn => if r = x then readV s x + nn else readV s r
      | _ => readV s r)

/-- The index register (10_state.md R24): an instruction leaves `I` unchanged, but load-index, which stores its
zero-extended field; of the host's operations only `RESET` writes it, with 0, apart from what `RUN` executes; and no
instruction but draw-sprite reads it: with another `I` before, every other instruction gives the same next state but
for `I` itself. -/
def Obligations.IndexRegisterUse : Prop :=
  (∀ (i : Instr) (s t : State), exec i s = .next t →
    t.i.toNat = match i with
      | .loadIndex nnn => nnn.toNat
      | _ => s.i.toNat) ∧
  (∀ (op : HostOp) (s t : State), (∀ n, op ≠ .run n) → hostOp op s = .next t →
    t.i = if op = .reset then 0 else s.i) ∧
  (∀ (i : Instr) (s t : State) (w : Word), (∀ x y n, i ≠ .drawSprite x y n) → exec i s = .next t →
    ∃ u, exec i { s with i := w } = .next u ∧ u = { t with i := u.i })

/-- Memory (20_memory.md section 2; the spec's inference from its instruction rules): no instruction of any form
changes a byte of memory. -/
def Obligations.NoInstructionWritesMemory : Prop :=
  ∀ (i : Instr) (s t : State), exec i s = .next t → SameMemory s t

/-- The framebuffer: every instruction but clear-screen and draw-sprite leaves every cell (10_state.md sections 1 and
2, the tables of what each instruction writes; an inference of the spec). -/
def Obligations.CellsChangeOnlyByDisplayInstructions : Prop :=
  ∀ (i : Instr) (s t : State), i ≠ .clearScreen → (∀ x y n, i ≠ .drawSprite x y n) → exec i s = .next t →
    SameCells s t

/-- The fault status and the diagnostics channel (60_exceptions.md section 3, on simultaneous events: decision D19 and
an inference of the spec): an instruction changes the fault status only to `SpriteReadOutOfBounds`, and only a
draw-sprite out of bounds does; it appends one event exactly when its class is unsupported. That the events are kept
in the state is the model's choice (assumption log 4). -/
def Obligations.FaultStatusAndChannelEffect : Prop :=
  ∀ (i : Instr) (s t : State), exec i s = .next t →
    (t.fault = s.fault ∨ (t.fault = .spriteReadOutOfBounds ∧
      ∃ x y n, i = .drawSprite x y n ∧ 1 ≤ n.toNat ∧ 0x0FFF < s.i.toNat + (n.toNat - 1))) ∧
    t.diag = s.diag ++ (match diagClass i with
      | some cls => [⟨cls, encode i⟩]
      | none => [])

/-- The diagnostic events are an output and never read (10_state.md section 7, 50_host_interface.md section 2): with
other events emitted before, a step does the same to everything else and appends the same events. That the events are
kept in the state is the model's choice (assumption log 4). -/
def Obligations.EventsAreNeverRead : Prop :=
  ∀ (s : State) (earlier : List DiagEvent),
    (∀ t, step s = .next t →
      step { s with diag := earlier ++ s.diag } = .next { t with diag := earlier ++ t.diag }) ∧
    (∀ f, step s = .fault f → step { s with diag := earlier ++ s.diag } = .fault f)

/-! ## Faults -/

/-- A fetch outside memory (60_exceptions.md section 2): the step takes `FetchOutOfBounds` and changes nothing but the
fault status. The fault is the spec's own decision D4, its shape decision D7 and assumption log 3. -/
def Obligations.FetchOutsideMemoryFaults : Prop :=
  ∀ s : State, s.fault = .noFault → 0x0FFE < s.pc.toNat → step s = .next { s with fault := .fetchOutOfBounds }

/-- The list of faults is complete, and a faulting step is precise (60_exceptions.md section 2; the spec's own
decisions D4, D5, D7): a step of an unfaulted Engine ends faulted exactly when it fetches past 0x0FFE or runs a
draw-sprite out of bounds, with that fault's status, and a step that faults changes nothing but the fault status. -/
def Obligations.FaultsExactlyWhenOutOfBounds : Prop :=
  ∀ s t : State, s.fault = .noFault → step s = .next t →
    (t.fault = .fetchOutOfBounds ↔ 0x0FFE < s.pc.toNat) ∧
    (t.fault = .spriteReadOutOfBounds ↔ s.pc.toNat ≤ 0x0FFE ∧
      ∃ x y n rest, decode (bytesAtPc s) = .ok (.drawSprite x y n, rest) ∧
        1 ≤ n.toNat ∧ 0x0FFF < s.i.toNat + (n.toNat - 1)) ∧
    (t.fault ≠ .noFault → t = { s with fault := t.fault })

/-- A faulted Engine does nothing until `RESET` (60_exceptions.md section 2; the spec's own decision D7): it has no
step, every `RUN` leaves the state as it is, no host operation but `RESET` changes the fault status, and `RESET`
clears it. -/
def Obligations.OnlyResetLeavesTheFaultedState : Prop :=
  ∀ s : State, s.fault ≠ .noFault →
    step s = .fault (.engineStopped s.fault) ∧
    (∀ n, opRun n s = s) ∧
    (∀ (op : HostOp) (t : State), op ≠ .reset → hostOp op s = .next t → t.fault = s.fault) ∧
    (opReset s).fault = .noFault

/-- What a step reports (00_scope.md section 4, step outcomes; 60_exceptions.md section 2, recorded information; the
spec's own decisions D4, D5, D7, D11): every step of an unfaulted Engine has a report, and it says truly what the step
did: an implemented instruction at `pc`; or an unsupported one, with the event of its class and its word; or a fault,
with the `pc`, the `I`, and the `N` of the draw-sprite at `pc`. That the report is computed beside the step is the
model's choice (assumption log 9), as are the faulting step as a next state (log 3) and the events in the state
(log 4). -/
def Obligations.ReportSaysWhatTheStepDid : Prop :=
  ∀ s : State, s.fault = .noFault →
    ∃ t report, step s = .next t ∧ stepReport s = some report ∧ ReportAgrees s t report

/-! ## Invariants -/

/-- The state after reset meets the invariant: `I` at most 0x0FFF and `pc` at most 0x1002 (10_state.md sections 3, 4 and
8, inferences of the spec), and memory in the canonical form, which is the model's own choice (assumption log 2). -/
def Obligations.ResetStateMeetsInvariant : Prop :=
  Inv State.reset

/-- Every step keeps the invariant, from any state: memory stays canonical, `I` stays at most 0x0FFF and `pc` at most
0x1002 (10_state.md sections 3 and 4, inferences of the spec; the canonical form is the model's, assumption log 2). -/
def Obligations.StepKeepsInvariant : Prop :=
  ∀ s t : State, Inv s → step s = .next t → Inv t

/-- Every host operation keeps the invariant, from any state: `RESET`, a `LOAD` of any image, `CLEAR`, a `RUN` of any
number of steps and the screen reads (10_state.md sections 3 and 4, inferences of the spec; the canonical form of memory
is the model's own choice, assumption log 2). -/
def Obligations.HostOperationsKeepInvariant : Prop :=
  ∀ (op : HostOp) (s t : State), Inv s → hostOp op s = .next t → Inv t

/-- Every state a host can reach by any sequence of its operations, loads of any image among them, meets the invariant
(10_state.md sections 3 and 4, inferences of the spec; the canonical form of memory is the model's own choice,
assumption log 2). -/
def Obligations.ReachableStatesMeetInvariant : Prop :=
  ∀ s : State, Reachable s → Inv s

/-- The reserved area cannot be written by any operation (20_memory.md section 1; decision D16): in every reachable
state each of its bytes is still the one power-on left. -/
def Obligations.ReservedAreaKeepsPowerOnBytes : Prop :=
  ∀ s : State, Reachable s → ∀ a, a < 0x200 → Memory.read s.mem a = Config.memInit a

/-- The canonical form is canonical over every power-on contents (the model's own form, assumption log 2): two
memories in that form that read alike at every address, whatever `mem_init` is, are the same data. -/
def Obligations.CanonicalMemoriesReadingAlikeAreEqual : Prop :=
  ∀ m m' : List Host.Cell, Memory.wf m = true → Memory.wf m' = true →
    (∀ (init : Nat → Byte) (a : Nat), Memory.readWith init m a = Memory.readWith init m' a) → m = m'

/-! ## The host's operations -/

/-- The host's `RESET` move completes, and what it leaves (10_state.md section 8, 50_host_interface.md section 1; that `RESET` clears the fault status and
keeps memory are the spec's own decisions D7 and D8; that it keeps the events is the model's, assumption log 5), what
power-on leaves, and that `RESET` is idempotent. -/
def Obligations.ResetLeavesItsValues : Prop :=
  (∀ s : State, hostOp .reset s = .next (opReset s) ∧
    (∀ r, readV (opReset s) r = 0) ∧ (opReset s).i = 0 ∧ (opReset s).pc = 0x200 ∧
    (∀ sy sx, readCell (opReset s).fb sy sx = false) ∧ (opReset s).fault = .noFault ∧
    SameMemory s (opReset s) ∧ opReset (opReset s) = opReset s) ∧
  opReset State.reset = State.reset ∧ (∀ a, Memory.read State.reset.mem a = Config.memInit a)

/-- `LOAD` within its precondition (50_host_interface.md section 1; the spec's own decision D9): it completes, byte `k`
of the image is at 0x200 + k, every other byte of memory is unchanged, `pc` is 0x200, and nothing else changes. -/
def Obligations.LoadPlacesTheImage : Prop :=
  ∀ (bytes : List Byte) (size : Nat) (s : State), size ≤ 3584 → size ≤ bytes.length →
    ∃ t, hostOp (.load bytes size) s = .next t ∧
      (∀ k, k < size → Memory.read t.mem (0x200 + k) = bytes.getD k 0) ∧
      (∀ a, a < 0x200 ∨ 0x200 + size ≤ a → Memory.read t.mem a = Memory.read s.mem a) ∧
      t.pc = 0x200 ∧ t = { s with mem := t.mem, pc := t.pc }

/-- `LOAD` outside its precondition is not a move of the Host (50_host_interface.md section 1; the spec's own decision
D6): it is refused. -/
def Obligations.LoadOutsideItsPreconditionIsRefused : Prop :=
  ∀ (bytes : List Byte) (size : Nat) (s : State), 3584 < size ∨ bytes.length < size →
    ∃ r, hostOp (.load bytes size) s = .refused r

/-- Only `LOAD` writes memory (20_memory.md section 2; an inference of the spec): every other host operation, `RUN` of
any number of steps among them, leaves every byte. -/
def Obligations.OnlyLoadWritesMemory : Prop :=
  ∀ (op : HostOp) (s t : State), (∀ bytes size, op ≠ .load bytes size) → hostOp op s = .next t → SameMemory s t

/-- The host's `RUN(n)` move completes for every `n`, executes its steps in order and composes (50_host_interface.md section 1; the early stop on a fault is the
spec's own decision D7, the composition its inference). -/
def Obligations.RunsCompose : Prop :=
  ∀ s : State, (∀ n, hostOp (.run n) s = .next (opRun n s)) ∧ opRun 0 s = s ∧
    (∀ (n : Nat) (t : State), step s = .next t → opRun (n + 1) s = opRun n t) ∧
    (∀ a b : Nat, opRun (a + b) s = opRun b (opRun a s))

/-- A jump to its own address stops a program's progress (40_cycle_control.md section 4; an inference of the spec):
where the word at `pc` is that jump, a `RUN` of any number of steps leaves the state as it is. -/
def Obligations.JumpToItselfHoldsTheState : Prop :=
  ∀ (s : State) (nnn : Field12) (rest : List Byte), s.fault = .noFault → s.pc.toNat ≤ 0x0FFE →
    decode (bytesAtPc s) = .ok (.jump nnn, rest) → nnn.toNat = s.pc.toNat → ∀ n, opRun n s = s

/-- `LOAD` and `RESET` commute (70_reset_and_hazards.md section 2; an inference of the spec from what the two write). -/
def Obligations.LoadAndResetCommute : Prop :=
  ∀ (bytes : List Byte) (size : Nat) (s t : State), hostOp (.load bytes size) s = .next t →
    hostOp (.load bytes size) (opReset s) = .next (opReset t)

/-- The screen view (50_host_interface.md section 1): 2048 bytes, element `sy * 64 + sx` 1 or 0 as the cell is;
`WIDTH` and `HEIGHT` are 64 and 32; none of the three changes the state. The order of the elements is the spec's own
decision D10. -/
def Obligations.ScreenViewIsRowMajor : Prop :=
  ∀ s : State,
    (∀ (sy : Fin 32) (sx : Fin 64) (h : sy.val * 64 + sx.val < 2048),
      (screenView s)[sy.val * 64 + sx.val] = if readCell s.fb sy sx then 0x01 else 0x00) ∧
    hostReply .screen s = .view (screenView s) ∧
    hostReply .width s = .number 64 ∧ hostReply .height s = .number 32 ∧
    hostOp .screen s = .next s ∧ hostOp .width s = .next s ∧ hostOp .height s = .next s

/-- `CLEAR` (50_host_interface.md section 1; admitted as a host operation by the spec's own decision D22): every cell 0
and nothing else changed, `pc` included. -/
def Obligations.ClearZeroesTheScreenOnly : Prop :=
  ∀ s : State, ∃ t, hostOp .clear s = .next t ∧
    (∀ sy sx, readCell t.fb sy sx = false) ∧ t = { s with fb := t.fb }
end

