-- ==== Sys2Proof/Laws/Decode.lean ====
section
/-! SUPPORT. The laws of the instruction fields: what each field of a packed word is, as bits and as a number, and
that a word is its own fields packed again. -/

namespace Sys2Proof

/-- A word as a number: the selector times 0x1000 plus the low twelve bits (R82). -/
theorem toNat_packWord (op : Nibble) (low : Field12) :
    (packWord op low).toNat = op.toNat * 0x1000 + low.toNat := by
  have h : (packWord op low).toNat = op.toNat <<< 12 ||| low.toNat := BitVec.toNat_append op low
  rw [h, ← Nat.shiftLeft_add_eq_or_of_lt low.isLt, Nat.shiftLeft_eq]

/-- Format `XNN`'s low twelve bits as a number (R83). -/
theorem toNat_packXNN (x : RegIdx) (nn : Byte) : (packXNN x nn).toNat = x.toNat * 0x100 + nn.toNat := by
  have h : (packXNN x nn).toNat = x.toNat <<< 8 ||| nn.toNat := BitVec.toNat_append x nn
  rw [h, ← Nat.shiftLeft_add_eq_or_of_lt nn.isLt, Nat.shiftLeft_eq]

/-- Format `XYN`'s low twelve bits as a number (R83). -/
theorem toNat_packXYN (x y : RegIdx) (n : Nibble) :
    (packXYN x y n).toNat = x.toNat * 0x100 + y.toNat * 0x10 + n.toNat := by
  have h : (packXYN x y n).toNat = (x ++ y).toNat <<< 4 ||| n.toNat := BitVec.toNat_append (x ++ y) n
  have h2 : (x ++ y).toNat = x.toNat <<< 4 ||| y.toNat := BitVec.toNat_append x y
  rw [h, ← Nat.shiftLeft_add_eq_or_of_lt n.isLt, h2, ← Nat.shiftLeft_add_eq_or_of_lt y.isLt]
  simp only [Nat.shiftLeft_eq]
  omega

/-- A field as a number. -/
theorem toNat_fieldOp (w : Word) : (fieldOp w).toNat = w.toNat / 0x1000 := by
  have := w.isLt
  simp only [fieldOp, BitVec.extractLsb'_toNat, Nat.shiftRight_eq_div_pow]
  omega

theorem toNat_fieldX (w : Word) : (fieldX w).toNat = w.toNat / 0x100 % 0x10 := by
  simp only [fieldX, BitVec.extractLsb'_toNat, Nat.shiftRight_eq_div_pow]

theorem toNat_fieldY (w : Word) : (fieldY w).toNat = w.toNat / 0x10 % 0x10 := by
  simp only [fieldY, BitVec.extractLsb'_toNat, Nat.shiftRight_eq_div_pow]

theorem toNat_fieldN (w : Word) : (fieldN w).toNat = w.toNat % 0x10 := by
  simp only [fieldN, BitVec.extractLsb'_toNat, Nat.shiftRight_eq_div_pow]
  omega

theorem toNat_fieldNN (w : Word) : (fieldNN w).toNat = w.toNat % 0x100 := by
  simp only [fieldNN, BitVec.extractLsb'_toNat, Nat.shiftRight_eq_div_pow]
  omega

theorem toNat_fieldNNN (w : Word) : (fieldNNN w).toNat = w.toNat % 0x1000 := by
  simp only [fieldNNN, BitVec.extractLsb'_toNat, Nat.shiftRight_eq_div_pow]
  omega

/-- The selector of a packed word. -/
@[simp] theorem fieldOp_packWord (op : Nibble) (low : Field12) : fieldOp (packWord op low) = op := by
  apply BitVec.eq_of_toNat_eq
  have := low.isLt
  rw [toNat_fieldOp, toNat_packWord]
  omega

/-- The low twelve bits of a packed word. -/
@[simp] theorem fieldNNN_packWord (op : Nibble) (low : Field12) : fieldNNN (packWord op low) = low := by
  apply BitVec.eq_of_toNat_eq
  have := low.isLt
  rw [toNat_fieldNNN, toNat_packWord]
  omega

@[simp] theorem fieldX_packXNN (op : Nibble) (x : RegIdx) (nn : Byte) : fieldX (packWord op (packXNN x nn)) = x := by
  apply BitVec.eq_of_toNat_eq
  have := x.isLt
  have := nn.isLt
  rw [toNat_fieldX, toNat_packWord, toNat_packXNN]
  omega

@[simp] theorem fieldNN_packXNN (op : Nibble) (x : RegIdx) (nn : Byte) : fieldNN (packWord op (packXNN x nn)) = nn := by
  apply BitVec.eq_of_toNat_eq
  have := nn.isLt
  rw [toNat_fieldNN, toNat_packWord, toNat_packXNN]
  omega

@[simp] theorem fieldX_packXYN (op : Nibble) (x y : RegIdx) (n : Nibble) :
    fieldX (packWord op (packXYN x y n)) = x := by
  apply BitVec.eq_of_toNat_eq
  have := x.isLt
  have := y.isLt
  have := n.isLt
  rw [toNat_fieldX, toNat_packWord, toNat_packXYN]
  omega

@[simp] theorem fieldY_packXYN (op : Nibble) (x y : RegIdx) (n : Nibble) :
    fieldY (packWord op (packXYN x y n)) = y := by
  apply BitVec.eq_of_toNat_eq
  have := y.isLt
  have := n.isLt
  rw [toNat_fieldY, toNat_packWord, toNat_packXYN]
  omega

@[simp] theorem fieldN_packXYN (op : Nibble) (x y : RegIdx) (n : Nibble) :
    fieldN (packWord op (packXYN x y n)) = n := by
  apply BitVec.eq_of_toNat_eq
  have := n.isLt
  rw [toNat_fieldN, toNat_packWord, toNat_packXYN]
  omega

/-- A word is its selector and its low twelve bits. -/
theorem packWord_fields (w : Word) : packWord (fieldOp w) (fieldNNN w) = w := by
  apply BitVec.eq_of_toNat_eq
  rw [toNat_packWord, toNat_fieldOp, toNat_fieldNNN]
  omega

/-- The low twelve bits are `X` and `NN`. -/
theorem packXNN_fields (w : Word) : packXNN (fieldX w) (fieldNN w) = fieldNNN w := by
  apply BitVec.eq_of_toNat_eq
  rw [toNat_packXNN, toNat_fieldX, toNat_fieldNN, toNat_fieldNNN]
  omega

/-- The low twelve bits are `X`, `Y` and `N`. -/
theorem packXYN_fields (w : Word) : packXYN (fieldX w) (fieldY w) (fieldN w) = fieldNNN w := by
  apply BitVec.eq_of_toNat_eq
  rw [toNat_packXYN, toNat_fieldX, toNat_fieldY, toNat_fieldN, toNat_fieldNNN]
  omega

/-- The mask of a priority 1 row of the opcode table keeps the family selector alone. -/
theorem and_familyMask (w : Word) : w &&& 0xF000 = packWord (fieldOp w) 0 := by
  apply BitVec.eq_of_getLsbD_eq
  intro i hi
  have h : ∀ j < 16, (0xF000 : Word).getLsbD j = decide (12 ≤ j) := by decide
  have e : (packWord (fieldOp w) 0).getLsbD i = if i < 12 then (0#12).getLsbD i else (fieldOp w).getLsbD (i - 12) :=
    BitVec.getLsbD_append
  rw [BitVec.getLsbD_and, h i hi, e]
  by_cases h12 : i < 12
  · simp [h12]
  · simp [h12, fieldOp, show 12 ≤ i by omega, show i - 12 < 4 by omega,
      show 12 + (i - 12) = i by omega]

/-- The mask of a priority 0 row keeps the whole word. -/
theorem and_wordMask (w : Word) : w &&& 0xFFFF = w := BitVec.and_allOnes

/-- The composed word as a number: big-endian (R56). -/
theorem toNat_wordOfBytes (high low : Byte) : (wordOfBytes high low).toNat = high.toNat * 0x100 + low.toNat := by
  have h : (wordOfBytes high low).toNat = high.toNat <<< 8 ||| low.toNat := BitVec.toNat_append high low
  rw [h, ← Nat.shiftLeft_add_eq_or_of_lt low.isLt, Nat.shiftLeft_eq]

end Sys2Proof
end

