-- ==== Sys2Proof/Laws/Memory.lean ====
section
/-! SUPPORT. The laws of working memory: a read after a write, bytes written in a row, and that every memory operation
keeps the canonical form. -/

namespace Sys2Proof.Machine

/-- The byte written is read back, and every other address reads as before. -/
theorem Memory.readWith_write (init : Nat → Byte) (m : List Host.Cell) (a : Nat) (b : Byte) (a' : Nat) :
    Memory.readWith init (Memory.write m a b) a' = if a' = a then b else Memory.readWith init m a' := by
  induction m with
  | nil => rfl
  | cons c rest ih =>
    obtain ⟨k, v⟩ := c
    simp only [Memory.write]
    split
    · rfl
    · split
      · subst k
        simp only [Memory.readWith]
        split <;> rfl
      · simp only [Memory.readWith, ih]
        split
        · subst a'
          simp [Ne.symm ‹_›]
        · rfl

theorem Memory.read_write (m : List Host.Cell) (a : Nat) (b : Byte) (a' : Nat) :
    Memory.read (Memory.write m a b) a' = if a' = a then b else Memory.read m a' :=
  Memory.readWith_write _ m a b a'

/-- Bytes written from `base` up are read back from there, and every other address reads as before. -/
theorem Memory.read_writeBytes (bytes : List Byte) (m : List Host.Cell) (base a : Nat) :
    Memory.read (Memory.writeBytes m base bytes) a =
      if base ≤ a ∧ a < base + bytes.length then bytes.getD (a - base) 0 else Memory.read m a := by
  induction bytes generalizing m base with
  | nil => simp [Memory.writeBytes]
  | cons b rest ih =>
    rw [Memory.writeBytes, ih, Memory.read_write]
    by_cases h1 : base + 1 ≤ a ∧ a < base + 1 + rest.length
    · have h2 : base ≤ a ∧ a < base + (b :: rest).length := by
        simp only [List.length_cons]; omega
      rw [if_pos h1, if_pos h2, show a - base = (a - (base + 1)) + 1 by omega, List.getD_cons_succ]
    · rw [if_neg h1]
      by_cases h3 : a = base
      · subst a
        simp
      · rw [if_neg h3, if_neg]
        simp only [List.length_cons]; omega

/-- A write inside working memory at or above `lo` keeps the canonical form above `lo`. -/
theorem Memory.wfFrom_write {m : List Host.Cell} {lo a : Nat} (b : Byte) (hlo : lo ≤ a) (ha : a < Config.memSize)
    (h : Memory.wfFrom lo m = true) : Memory.wfFrom lo (Memory.write m a b) = true := by
  induction m generalizing lo with
  | nil => simp [Memory.write, Memory.wfFrom, hlo, ha]
  | cons c rest ih =>
    obtain ⟨k, v⟩ := c
    simp only [Memory.wfFrom, Bool.and_eq_true, decide_eq_true_eq] at h
    obtain ⟨⟨h1, h2⟩, h3⟩ := h
    simp only [Memory.write]
    split
    · simp only [Memory.wfFrom, Bool.and_eq_true, decide_eq_true_eq]
      exact ⟨⟨hlo, ha⟩, ⟨by omega, h2⟩, h3⟩
    · split
      · subst k
        simp only [Memory.wfFrom, Bool.and_eq_true, decide_eq_true_eq]
        exact ⟨⟨hlo, ha⟩, h3⟩
      · simp only [Memory.wfFrom, Bool.and_eq_true, decide_eq_true_eq]
        exact ⟨⟨h1, h2⟩, ih (by omega) h3⟩

/-- Every write inside working memory keeps the canonical form. -/
theorem Memory.wf_write {m : List Host.Cell} {a : Nat} (b : Byte) (ha : a < Config.memSize)
    (h : Memory.wf m = true) : Memory.wf (Memory.write m a b) = true :=
  Memory.wfFrom_write b (Nat.zero_le a) ha h

/-- Bytes written inside working memory keep the canonical form. -/
theorem Memory.wf_writeBytes (bytes : List Byte) {m : List Host.Cell} {base : Nat}
    (hb : base + bytes.length ≤ Config.memSize) (h : Memory.wf m = true) :
    Memory.wf (Memory.writeBytes m base bytes) = true := by
  induction bytes generalizing m base with
  | nil => exact h
  | cons b rest ih =>
    rw [List.length_cons] at hb
    exact ih (by omega) (Memory.wf_write b (by omega) h)

/-- Nothing listed is the canonical form of power-on memory. -/
@[simp] theorem Memory.wf_nil : Memory.wf [] = true := rfl

end Sys2Proof.Machine
end

