-- ==== Sys2Proof/Laws/Framebuffer.lean ====
section
/-! SUPPORT. The laws of the framebuffer: a cell read after a cell written, and what one sprite row does. -/

namespace Sys2Proof.Machine

/-- Two framebuffers with the same cells are the same framebuffer. -/
theorem framebuffer_ext {f g : Framebuffer} (h : ∀ sy sx, readCell f sy sx = readCell g sy sx) : f = g := by
  apply Vector.ext
  intro y hy
  apply Vector.ext
  intro x hx
  exact h ⟨y, hy⟩ ⟨x, hx⟩

@[simp] theorem readCell_blank (sy : Fin 32) (sx : Fin 64) : readCell blankFramebuffer sy sx = false := by
  simp [readCell, blankFramebuffer]

/-- The bit written is read back, and every other cell reads as before. -/
theorem readCell_writeCell (fb : Framebuffer) (sy : Fin 32) (sx : Fin 64) (b : Bool) (y : Fin 32) (x : Fin 64) :
    readCell (writeCell fb sy sx b) y x = if y = sy ∧ x = sx then b else readCell fb y x := by
  obtain ⟨y, hy⟩ := y
  obtain ⟨x, hx⟩ := x
  obtain ⟨sy, hsy⟩ := sy
  obtain ⟨sx, hsx⟩ := sx
  simp only [readCell, writeCell, Fin.getElem_fin, Fin.mk.injEq, Vector.getElem_set]
  by_cases h1 : sy = y
  · subst h1
    by_cases h2 : sx = x
    · subst h2; simp
    · simp [h2, Ne.symm h2]
  · simp [h1, Ne.symm h1]

/-- A toggle changes its own cell, by exclusive-or, and no other (R154). -/
theorem readCell_toggleCell (fb : Framebuffer) (sy : Fin 32) (sx : Fin 64) (b : Bool) (y : Fin 32) (x : Fin 64) :
    readCell (toggleCell fb sy sx b) y x =
      (readCell fb y x ^^ (decide (y = sy ∧ x = sx) && b)) := by
  rw [toggleCell, readCell_writeCell]
  by_cases h : y = sy ∧ x = sx
  · obtain ⟨rfl, rfl⟩ := h; simp
  · simp [h]

/-- A row of toggles changes each cell by the exclusive-or of the bits that land on it. -/
theorem readCell_foldl_toggle {α : Type} (l : List α) (row : α → Fin 32) (col : α → Fin 64) (bit : α → Bool)
    (fb : Framebuffer) (y : Fin 32) (x : Fin 64) :
    readCell (l.foldl (fun f k => toggleCell f (row k) (col k) (bit k)) fb) y x =
      l.foldl (fun acc k => acc ^^ (decide (y = row k ∧ x = col k) && bit k)) (readCell fb y x) := by
  induction l generalizing fb with
  | nil => rfl
  | cons k rest ih => rw [List.foldl_cons, ih, readCell_toggleCell, List.foldl_cons]

end Sys2Proof.Machine
end

