-- ==== Sys2Proof/Laws/State.lean ====
section
/-! SUPPORT. Each named update of the state, read back field by field: what it writes, and that it writes nothing
else. True by computation, and simp lemmas, so that no proof unfolds a record update. -/

namespace Sys2Proof.Machine

variable (s : State)

/-! ### writeV -/

@[simp] theorem writeV_v (x : RegIdx) (b : Byte) : (writeV s x b).v = s.v.set x.toNat b := rfl
@[simp] theorem writeV_i (x : RegIdx) (b : Byte) : (writeV s x b).i = s.i := rfl
@[simp] theorem writeV_pc (x : RegIdx) (b : Byte) : (writeV s x b).pc = s.pc := rfl
@[simp] theorem writeV_mem (x : RegIdx) (b : Byte) : (writeV s x b).mem = s.mem := rfl
@[simp] theorem writeV_fb (x : RegIdx) (b : Byte) : (writeV s x b).fb = s.fb := rfl
@[simp] theorem writeV_fault (x : RegIdx) (b : Byte) : (writeV s x b).fault = s.fault := rfl
@[simp] theorem writeV_diag (x : RegIdx) (b : Byte) : (writeV s x b).diag = s.diag := rfl

/-! ### writeI -/

@[simp] theorem writeI_v (w : Word) : (writeI s w).v = s.v := rfl
@[simp] theorem writeI_i (w : Word) : (writeI s w).i = w := rfl
@[simp] theorem writeI_pc (w : Word) : (writeI s w).pc = s.pc := rfl
@[simp] theorem writeI_mem (w : Word) : (writeI s w).mem = s.mem := rfl
@[simp] theorem writeI_fb (w : Word) : (writeI s w).fb = s.fb := rfl
@[simp] theorem writeI_fault (w : Word) : (writeI s w).fault = s.fault := rfl
@[simp] theorem writeI_diag (w : Word) : (writeI s w).diag = s.diag := rfl

/-! ### writePc -/

@[simp] theorem writePc_v (w : Word) : (writePc s w).v = s.v := rfl
@[simp] theorem writePc_i (w : Word) : (writePc s w).i = s.i := rfl
@[simp] theorem writePc_pc (w : Word) : (writePc s w).pc = w := rfl
@[simp] theorem writePc_mem (w : Word) : (writePc s w).mem = s.mem := rfl
@[simp] theorem writePc_fb (w : Word) : (writePc s w).fb = s.fb := rfl
@[simp] theorem writePc_fault (w : Word) : (writePc s w).fault = s.fault := rfl
@[simp] theorem writePc_diag (w : Word) : (writePc s w).diag = s.diag := rfl

/-! ### advanceBy -/

@[simp] theorem advanceBy_v (k : Word) : (advanceBy s k).v = s.v := rfl
@[simp] theorem advanceBy_i (k : Word) : (advanceBy s k).i = s.i := rfl
@[simp] theorem advanceBy_pc (k : Word) : (advanceBy s k).pc = s.pc + k := rfl
@[simp] theorem advanceBy_mem (k : Word) : (advanceBy s k).mem = s.mem := rfl
@[simp] theorem advanceBy_fb (k : Word) : (advanceBy s k).fb = s.fb := rfl
@[simp] theorem advanceBy_fault (k : Word) : (advanceBy s k).fault = s.fault := rfl
@[simp] theorem advanceBy_diag (k : Word) : (advanceBy s k).diag = s.diag := rfl

/-! ### advance -/

@[simp] theorem advance_v : (advance s).v = s.v := rfl
@[simp] theorem advance_i : (advance s).i = s.i := rfl
@[simp] theorem advance_pc : (advance s).pc = s.pc + 2 := rfl
@[simp] theorem advance_mem : (advance s).mem = s.mem := rfl
@[simp] theorem advance_fb : (advance s).fb = s.fb := rfl
@[simp] theorem advance_fault : (advance s).fault = s.fault := rfl
@[simp] theorem advance_diag : (advance s).diag = s.diag := rfl

/-! ### writeFb -/

@[simp] theorem writeFb_v (fb : Framebuffer) : (writeFb s fb).v = s.v := rfl
@[simp] theorem writeFb_i (fb : Framebuffer) : (writeFb s fb).i = s.i := rfl
@[simp] theorem writeFb_pc (fb : Framebuffer) : (writeFb s fb).pc = s.pc := rfl
@[simp] theorem writeFb_mem (fb : Framebuffer) : (writeFb s fb).mem = s.mem := rfl
@[simp] theorem writeFb_fb (fb : Framebuffer) : (writeFb s fb).fb = fb := rfl
@[simp] theorem writeFb_fault (fb : Framebuffer) : (writeFb s fb).fault = s.fault := rfl
@[simp] theorem writeFb_diag (fb : Framebuffer) : (writeFb s fb).diag = s.diag := rfl

/-! ### emitDiag -/

@[simp] theorem emitDiag_v (cls : DiagClass) (w : Word) : (emitDiag s cls w).v = s.v := rfl
@[simp] theorem emitDiag_i (cls : DiagClass) (w : Word) : (emitDiag s cls w).i = s.i := rfl
@[simp] theorem emitDiag_pc (cls : DiagClass) (w : Word) : (emitDiag s cls w).pc = s.pc := rfl
@[simp] theorem emitDiag_mem (cls : DiagClass) (w : Word) : (emitDiag s cls w).mem = s.mem := rfl
@[simp] theorem emitDiag_fb (cls : DiagClass) (w : Word) : (emitDiag s cls w).fb = s.fb := rfl
@[simp] theorem emitDiag_fault (cls : DiagClass) (w : Word) : (emitDiag s cls w).fault = s.fault := rfl
@[simp] theorem emitDiag_diag (cls : DiagClass) (w : Word) : (emitDiag s cls w).diag = s.diag ++ [⟨cls, w⟩] := rfl

/-! ### opReset and opClear -/

@[simp] theorem opReset_v : (opReset s).v = Vector.replicate 16 0 := rfl
@[simp] theorem opReset_i : (opReset s).i = 0 := rfl
@[simp] theorem opReset_pc : (opReset s).pc = 0x200 := rfl
@[simp] theorem opReset_mem : (opReset s).mem = s.mem := rfl
@[simp] theorem opReset_fb : (opReset s).fb = blankFramebuffer := rfl
@[simp] theorem opReset_fault : (opReset s).fault = .noFault := rfl
@[simp] theorem opReset_diag : (opReset s).diag = s.diag := rfl
@[simp] theorem opClear_v : (opClear s).v = s.v := rfl
@[simp] theorem opClear_i : (opClear s).i = s.i := rfl
@[simp] theorem opClear_pc : (opClear s).pc = s.pc := rfl
@[simp] theorem opClear_mem : (opClear s).mem = s.mem := rfl
@[simp] theorem opClear_fb : (opClear s).fb = blankFramebuffer := rfl
@[simp] theorem opClear_fault : (opClear s).fault = s.fault := rfl
@[simp] theorem opClear_diag : (opClear s).diag = s.diag := rfl

/-! ### Reading registers back -/

/-- `V[x]` reads what was written to it (R21). -/
@[simp] theorem readV_writeV_same (x : RegIdx) (b : Byte) : readV (writeV s x b) x = b := by
  simp [readV, writeV]

/-- A write to one register changes no other: none aliases another (R21). -/
theorem readV_writeV_other {x r : RegIdx} (b : Byte) (h : r ≠ x) : readV (writeV s x b) r = readV s r := by
  have hx : x.toNat ≠ r.toNat := fun e => h (BitVec.eq_of_toNat_eq e.symm)
  simp [readV, writeV, hx]

/-- Registers are read from the register file alone. -/
theorem readV_congr {s t : State} (h : t.v = s.v) (r : RegIdx) : readV t r = readV s r := by
  simp [readV, h]

@[simp] theorem readV_reset (r : RegIdx) : readV State.reset r = 0 := by
  simp [readV, State.reset]

end Sys2Proof.Machine
end

