-- ==== Sys2Proof/Laws/Ops.lean ====
section
/-! SUPPORT. One lemma per shared operation that says everything the operation can do: the fetch, taking a fault, the
unsupported words, the sprite-blit engine, the step, and the host's load and run. -/

namespace Sys2Proof.Machine

/-- The fetch finds no word exactly past 0x0FFE (R81). -/
theorem fetch_eq_none_iff (s : State) : fetch s = none ↔ 0x0FFE < s.pc.toNat := by
  simp [fetch]

/-- Up to 0x0FFE the fetch finds the word of the two bytes at `pc` (R81). -/
theorem fetch_eq_some {s : State} (h : s.pc.toNat ≤ 0x0FFE) :
    fetch s = some (wordOfBytes (Memory.read s.mem s.pc.toNat) (Memory.read s.mem (s.pc.toNat + 1))) := by
  simp [fetch, Nat.not_lt.mpr h]

/-- Taking a fault is a next state that differs in the fault status alone (R233). -/
theorem raiseFault_eq (cause : FaultStatus) (s : State) : raiseFault cause s = .next { s with fault := cause } := rfl

/-- An unsupported word emits one event and advances `pc` (R180). -/
theorem unsupported_eq (cls : DiagClass) (w : Word) (s : State) :
    unsupported cls w s = .next { s with pc := s.pc + 2, diag := s.diag ++ [⟨cls, w⟩] } := rfl

/-- The bounds test as an inequality (R159). -/
theorem spriteOutOfBounds_iff (s : State) (n : Nibble) :
    spriteOutOfBounds s n = true ↔ 1 ≤ n.toNat ∧ 0x0FFF < s.i.toNat + (n.toNat - 1) := by
  rw [spriteOutOfBounds, spriteAddress, decide_eq_true_iff]

/-- draw-sprite either takes its fault or draws and advances (R151). -/
theorem execDrawSprite_cases (x y : RegIdx) (n : Nibble) (s : State) :
    (spriteOutOfBounds s n = true ∧ execDrawSprite x y n s = .next { s with fault := .spriteReadOutOfBounds }) ∨
    (spriteOutOfBounds s n = false ∧ execDrawSprite x y n s = .next
      { s with fb := drawRows (startColumn s x) (startRow s y) n.toNat (spriteByte s) s.fb, pc := s.pc + 2 }) := by
  cases h : spriteOutOfBounds s n
  · exact .inr ⟨rfl, by rw [execDrawSprite, if_neg (by simp [h])]; rfl⟩
  · exact .inl ⟨rfl, by rw [execDrawSprite, if_pos h]; rfl⟩

/-- Drawing no row leaves the framebuffer (R156). -/
@[simp] theorem drawRows_zero (x0 y0 : Nat) (row : Nat → Byte) (fb : Framebuffer) :
    drawRows x0 y0 0 row fb = fb := rfl

/-- Drawing one more row is drawing it after the others (R151). -/
theorem drawRows_succ (x0 y0 n : Nat) (row : Nat → Byte) (fb : Framebuffer) :
    drawRows x0 y0 (n + 1) row fb = drawRow x0 (targetRow y0 n) (row n) (drawRows x0 y0 n row fb) := by
  simp [drawRows, List.range_succ, List.foldl_append]

/-- A step that answers a next state was of an unfaulted Engine: it took the fetch's fault, or ran the fetched
word (R110). -/
theorem step_cases {s t : State} (h : step s = .next t) :
    s.fault = .noFault ∧
      ((fetch s = none ∧ t = { s with fault := .fetchOutOfBounds }) ∨
       ∃ w, fetch s = some w ∧ exec (decodeWord w) s = .next t) := by
  simp only [step] at h
  split at h
  · refine ⟨‹_›, ?_⟩
    cases hf : fetch s with
    | none =>
      rw [hf, raiseFault_eq] at h
      exact .inl ⟨rfl, (Host.Outcome.next.inj h).symm⟩
    | some w =>
      rw [hf] at h
      exact .inr ⟨w, rfl, h⟩
  · cases h

/-- The step of a faulted Engine is a stop (R233). -/
theorem step_faulted {s : State} (h : s.fault ≠ .noFault) : step s = .fault (.engineStopped s.fault) := by
  simp [step, h]

/-- A `LOAD` that answers a next state met its precondition, and wrote its bytes and `pc` (R202, R203). -/
theorem opLoad_cases {bytes : List Byte} {size : Nat} {s t : State} (h : opLoad bytes size s = .next t) :
    size ≤ Config.maxProg ∧ size ≤ bytes.length ∧
      t = { s with mem := Memory.writeBytes s.mem Config.progBase (bytes.take size), pc := 0x200 } := by
  simp only [opLoad] at h
  split at h
  · cases h
  · split at h
    · cases h
    · exact ⟨by omega, by omega, (Host.Outcome.next.inj h).symm⟩

/-- A property that every step keeps is kept by `RUN` (R204). -/
theorem opRun_keeps {P : State → Prop} (hstep : ∀ s t, P s → step s = .next t → P t) (n : Nat) (s : State)
    (h : P s) : P (opRun n s) := by
  induction n generalizing s with
  | zero => exact h
  | succ n ih =>
    simp only [opRun]
    split
    · exact ih _ (hstep _ _ h ‹_›)
    · exact h
    · exact h

end Sys2Proof.Machine
end

