-- ==== Sys2Proof/Laws/Fetch.lean ====
section
/-! SUPPORT. A word and its two bytes, and that an instruction placed where the step fetches is the one it runs. -/

namespace Sys2Proof.Machine

/-- The two bytes of a word compose to the word again (R56, R81). -/
theorem wordOfBytes_of_bytesOfWord (w : Word) : wordOfBytes (w.extractLsb' 8 8) (w.extractLsb' 0 8) = w := by
  apply BitVec.eq_of_toNat_eq
  have := w.isLt
  rw [toNat_wordOfBytes]
  simp only [BitVec.extractLsb'_toNat, Nat.shiftRight_eq_div_pow]
  omega

/-- The decoder reads the two bytes of a word as that word, and leaves what follows. -/
theorem decode_bytesOfWord (w : Word) (rest : List Byte) :
    decode (bytesOfWord w ++ rest) = .ok (decodeWord w, rest) := by
  simp only [bytesOfWord, List.cons_append, List.nil_append, decode, wordOfBytes_of_bytesOfWord]

/-- Two bytes of memory holding a word, high byte first, are what the fetch finds there (R81). -/
theorem fetch_of_bytes {s : State} {w : Word} (hp : s.pc.toNat ≤ 0x0FFE)
    (hh : Memory.read s.mem s.pc.toNat = w.extractLsb' 8 8)
    (hl : Memory.read s.mem (s.pc.toNat + 1) = w.extractLsb' 0 8) : fetch s = some w := by
  rw [fetch_eq_some hp, hh, hl, wordOfBytes_of_bytesOfWord]

/-- From any state, the step after `withFetchWord` runs exactly the instruction placed. -/
theorem step_withFetchWord (s : State) {w : Nat} (hw : w < 2 ^ 16) :
    step (s.withFetchWord 16 w) = exec (decodeWord (BitVec.ofNat 16 w)) (s.withFetchWord 16 w) := by
  have hm : (s.withFetchWord 16 w).mem =
      Memory.writeBytes s.mem (s.withFetchWord 16 w).pc.toNat (bytesOfWord (BitVec.ofNat 16 w)) := by
    simp only [State.withFetchWord, tableBytes, Nat.mod_eq_of_lt hw]
  have hp : (s.withFetchWord 16 w).pc.toNat ≤ 0x0FFE := by
    simp only [State.withFetchWord]
    split
    · decide
    · omega
  have hf : fetch (s.withFetchWord 16 w) = some (BitVec.ofNat 16 w) := by
    refine fetch_of_bytes hp ?_ ?_
    · rw [hm, Memory.read_writeBytes, if_pos ⟨by omega, by simp [bytesOfWord]⟩, Nat.sub_self]
      rfl
    · rw [hm, Memory.read_writeBytes, if_pos ⟨by omega, by simp [bytesOfWord]⟩, Nat.add_sub_cancel_left]
      rfl
  rw [step, if_pos (show (s.withFetchWord 16 w).fault = .noFault from rfl), hf]

end Sys2Proof.Machine
end

