-- ==== Sys2Proof/Laws/PerInstr.lean ====
section
/-! SUPPORT. Statements made of every instruction as syntax, one lemma per constructor. -/

namespace Sys2Proof.Laws

/-- The family selector of an instruction, the first digit of its encoding pattern (30_encoding.md R86). -/
def familyOf : Instr → Nibble
  | .clearScreen => 0x0
  | .ret => 0x0
  | .unknown0 _ => 0x0
  | .jump _ => 0x1
  | .call _ => 0x2
  | .skipIfEqual _ _ => 0x3
  | .unknown4 _ => 0x4
  | .unknown5 _ => 0x5
  | .loadImmediate _ _ => 0x6
  | .addImmediate _ _ => 0x7
  | .unknown8 _ => 0x8
  | .unknown9 _ => 0x9
  | .loadIndex _ => 0xA
  | .unknownB _ => 0xB
  | .unknownC _ => 0xC
  | .drawSprite _ _ _ => 0xD
  | .unknownE _ => 0xE
  | .misc _ => 0xF

namespace SelectedByFamily

/-- The instruction's word is selected by its family's nibble (R85, R86). -/
def Statement (i : Instr) : Prop := fieldOp (encode i) = familyOf i

theorem clearScreen : Statement .clearScreen := rfl
theorem ret : Statement .ret := rfl
theorem unknown0 (payload : Field12) : Statement (.unknown0 payload) := fieldOp_packWord _ _
theorem jump (nnn : Field12) : Statement (.jump nnn) := fieldOp_packWord _ _
theorem call (nnn : Field12) : Statement (.call nnn) := fieldOp_packWord _ _
theorem skipIfEqual (x : RegIdx) (nn : Byte) : Statement (.skipIfEqual x nn) := fieldOp_packWord _ _
theorem unknown4 (payload : Field12) : Statement (.unknown4 payload) := fieldOp_packWord _ _
theorem unknown5 (payload : Field12) : Statement (.unknown5 payload) := fieldOp_packWord _ _
theorem loadImmediate (x : RegIdx) (nn : Byte) : Statement (.loadImmediate x nn) := fieldOp_packWord _ _
theorem addImmediate (x : RegIdx) (nn : Byte) : Statement (.addImmediate x nn) := fieldOp_packWord _ _
theorem unknown8 (payload : Field12) : Statement (.unknown8 payload) := fieldOp_packWord _ _
theorem unknown9 (payload : Field12) : Statement (.unknown9 payload) := fieldOp_packWord _ _
theorem loadIndex (nnn : Field12) : Statement (.loadIndex nnn) := fieldOp_packWord _ _
theorem unknownB (payload : Field12) : Statement (.unknownB payload) := fieldOp_packWord _ _
theorem unknownC (payload : Field12) : Statement (.unknownC payload) := fieldOp_packWord _ _
theorem drawSprite (x y : RegIdx) (n : Nibble) : Statement (.drawSprite x y n) := fieldOp_packWord _ _
theorem unknownE (payload : Field12) : Statement (.unknownE payload) := fieldOp_packWord _ _
theorem misc (payload : Field12) : Statement (.misc payload) := fieldOp_packWord _ _

end SelectedByFamily

end Sys2Proof.Laws
end

