-- ==== Sys2Proof/Tests/Slice0.lean ====
section
/-! SUPPORT. Tests: the well-formedness smoke test, every constructor's decoding from a word written out bit by bit
from 30_encoding.md, single steps whose expected results are the vectors of 95_test_vectors.md (named in each comment),
and for every statement that has hypotheses a witness that meets them. -/

namespace Sys2Proof.Tests

open Sys2Proof.Machine

/-! ## Helpers -/

/-- The next state of an outcome, if it is one. -/
def nextOf (o : Host.Outcome State Fault Refusal) : Option State :=
  match o with
  | .next t => some t
  | .fault _ => none
  | .refused _ => none

/-- One step from `s` with the word `w` at `pc`. -/
def stepOn (s : State) (w : Word) : Option State :=
  nextOf (step { s with mem := Memory.writeBytes s.mem s.pc.toNat (bytesOfWord w) })

/-- The reset state with `pc` set. -/
def atPc (pc : Word) : State := writePc State.reset pc

/-- The reset state with a word placed at 0x200. -/
def withWord (w : Word) : State := { State.reset with mem := Memory.writeBytes [] 0x200 (bytesOfWord w) }

/-- The reset state with bytes at 0x300 and `I` there. -/
def withSprite (bytes : List Byte) : State := { State.reset with mem := Memory.writeBytes [] 0x300 bytes, i := 0x300 }

/-- The cells equal to 1, as the pairs (row, column) of 95_test_vectors.md. -/
def cellsAtOne (fb : Framebuffer) : List (Nat × Nat) :=
  fb.toList.zipIdx.flatMap (fun p => p.1.toList.zipIdx.filterMap (fun q => if q.1 then some (p.2, q.2) else none))

/-- The state before every vector U1 to U19. -/
def beforeU : State :=
  { State.reset with
    v := ((((State.reset.v.set 0 0x01).set 1 0x02).set 2 0x03).set 15 0x09)
    i := 0x345
    pc := 0x300
    fb := writeCell blankFramebuffer 3 3 true }

/-- What every vector U1 to U19 says: `pc` at 0x302, the one event, and nothing else changed. -/
def afterU (cls : DiagClass) (w : Word) : State := { beforeU with pc := 0x302, diag := [⟨cls, w⟩] }

/-! ## WellFormed: an ill-formed term for each check (R184) -/

theorem test_unknown0_is_not_clear_screen : WellFormed (.unknown0 0x0E0) = false := by decide
theorem test_unknown0_is_not_return : WellFormed (.unknown0 0x0EE) = false := by decide
theorem test_unknown0_others_are_well_formed : WellFormed (.unknown0 0x0E1) = true := by decide

/-! ## Decoding of words written out bit by bit (30_encoding.md R83, R86) -/

theorem test_decode_clear_screen : decodeWord 0b0000000011100000 = .clearScreen := by decide
theorem test_decode_return : decodeWord 0b0000000011101110 = .ret := by decide
theorem test_decode_unknown0 : decodeWord 0b0000000111100000 = .unknown0 0x1E0 := by decide
theorem test_decode_jump : decodeWord 0b0001101010111100 = .jump 0xABC := by decide
theorem test_decode_call : decodeWord 0b0010000100100011 = .call 0x123 := by decide
theorem test_decode_skip_if_equal : decodeWord 0b0011111100101010 = .skipIfEqual 0xF 0x2A := by decide
theorem test_decode_unknown4 : decodeWord 0b0100101000000101 = .unknown4 0xA05 := by decide
theorem test_decode_unknown5 : decodeWord 0b0101000100100000 = .unknown5 0x120 := by decide
theorem test_decode_load_immediate : decodeWord 0b0110010110000001 = .loadImmediate 0x5 0x81 := by decide
theorem test_decode_add_immediate : decodeWord 0b0111000100001010 = .addImmediate 0x1 0x0A := by decide
theorem test_decode_unknown8 : decodeWord 0b1000000100100100 = .unknown8 0x124 := by decide
theorem test_decode_unknown9 : decodeWord 0b1001000100100000 = .unknown9 0x120 := by decide
theorem test_decode_load_index : decodeWord 0b1010001000010000 = .loadIndex 0x210 := by decide
theorem test_decode_unknownB : decodeWord 0b1011001100000000 = .unknownB 0x300 := by decide
theorem test_decode_unknownC : decodeWord 0b1100000011111111 = .unknownC 0x0FF := by decide
theorem test_decode_draw_sprite : decodeWord 0b1101001001000111 = .drawSprite 0x2 0x4 0x7 := by decide
theorem test_decode_unknownE : decodeWord 0b1110000010011110 = .unknownE 0x09E := by decide
theorem test_decode_misc : decodeWord 0b1111000000001010 = .misc 0x00A := by decide

theorem test_encode_draw_sprite : encode (.drawSprite 0x2 0x4 0x7) = 0xD247 := by decide
theorem test_decode_bytes_high_first : decode [0x60, 0x05, 0xAA] = .ok (.loadImmediate 0 0x05, [0xAA]) := rfl
theorem test_decode_one_byte_is_rejected : decode [0x60] = .error .truncated := rfl
theorem test_decode_table_word : decodeTableWord 16 0xA210 = some (.loadIndex 0x210) := by decide

/-! ## Single steps: the vectors of 95_test_vectors.md -/

/-- C1: JP 0xABC. -/
theorem test_jump : (stepOn State.reset 0x1ABC).map State.pc = some 0x0ABC := by decide +kernel
/-- C9: a jump to itself at an odd address. -/
theorem test_jump_odd : (stepOn (atPc 0x201) 0x1201).map State.pc = some 0x0201 := by decide +kernel
/-- C7: taken at 0x0FFE, the largest reachable `pc`. -/
theorem test_skip_taken_at_the_end : (stepOn (atPc 0x0FFE) 0x3000).map State.pc = some 0x1002 := by decide +kernel
/-- C6: not taken. -/
theorem test_skip_not_taken : (stepOn (writeV State.reset 3 0xFE) 0x33FF).map State.pc = some 0x0202 := by
  decide +kernel
/-- A2: LD VF, 0xFF. -/
theorem test_load_immediate : (stepOn State.reset 0x6FFF).map (fun t => readV t 0xF) = some 0xFF := by decide +kernel
/-- A4: 0xFF + 0xFF wraps to 0xFE, and VF gets no carry. -/
theorem test_add_wraps_without_carry :
    (stepOn (writeV State.reset 1 0xFF) 0x71FF).map (fun t => (readV t 1, readV t 0xF)) = some (0xFE, 0x00) := by
  decide +kernel
/-- A6: VF as the destination. -/
theorem test_add_to_vf : (stepOn (writeV State.reset 0xF 0x10) 0x7FF5).map (fun t => readV t 0xF) = some 0x05 := by
  decide +kernel
/-- A9: LD I, 0xFFF. -/
theorem test_load_index : (stepOn State.reset 0xAFFF).map State.i = some 0x0FFF := by decide +kernel
/-- E1: CLS. -/
theorem test_clear_screen :
    (stepOn (writeFb State.reset (writeCell (writeCell blankFramebuffer 5 7 true) 31 63 true)) 0x00E0).map
      (fun t => (cellsAtOne t.fb, t.pc)) = some ([], 0x0202) := by decide +kernel
/-- D11: wraps both ways. -/
theorem test_draw_wraps_both_ways :
    (stepOn (writeV (writeV (withSprite [0xFF, 0xFF]) 0 0xFF) 1 0xFF) 0xD012).map (fun t => cellsAtOne t.fb) =
      some ([(0, 0), (0, 1), (0, 2), (0, 3), (0, 4), (0, 5), (0, 6), (0, 63)] ++
        [(31, 0), (31, 1), (31, 2), (31, 3), (31, 4), (31, 5), (31, 6), (31, 63)]) := by decide +kernel
/-- D6: a toggle, two cells going from 1 to 0, and no collision flag. -/
theorem test_draw_toggles_without_collision_flag :
    (stepOn (writeFb (withSprite [0xF0])
      (writeCell (writeCell (writeCell blankFramebuffer 0 0 true) 0 1 true) 0 8 true)) 0xD011).map
      (fun t => (cellsAtOne t.fb, readV t 0xF)) = some ([(0, 2), (0, 3), (0, 8)], 0x00) := by decide +kernel
/-- U1 to U3, U7, U13 to U19: the event, `pc + 2`, nothing else. -/
theorem test_return : nextOf (exec (decodeWord 0x00EE) beforeU) = some (afterU .ret 0x00EE) := by decide +kernel
theorem test_call : nextOf (exec (decodeWord 0x2123) beforeU) = some (afterU .call 0x2123) := by decide +kernel
theorem test_misc : nextOf (exec (decodeWord 0xF00A) beforeU) = some (afterU .misc 0xF00A) := by decide +kernel
theorem test_unknown0 : nextOf (exec (decodeWord 0x0000) beforeU) = some (afterU .unknown 0x0000) := by decide +kernel
theorem test_unknown4 : nextOf (exec (decodeWord 0x4A05) beforeU) = some (afterU .unknown 0x4A05) := by decide +kernel
theorem test_unknown5 : nextOf (exec (decodeWord 0x5120) beforeU) = some (afterU .unknown 0x5120) := by decide +kernel
theorem test_unknown8 : nextOf (exec (decodeWord 0x8124) beforeU) = some (afterU .unknown 0x8124) := by decide +kernel
theorem test_unknown9 : nextOf (exec (decodeWord 0x9120) beforeU) = some (afterU .unknown 0x9120) := by decide +kernel
theorem test_unknownB : nextOf (exec (decodeWord 0xB300) beforeU) = some (afterU .unknown 0xB300) := by decide +kernel
theorem test_unknownC : nextOf (exec (decodeWord 0xC0FF) beforeU) = some (afterU .unknown 0xC0FF) := by decide +kernel
theorem test_unknownE : nextOf (exec (decodeWord 0xE09E) beforeU) = some (afterU .unknown 0xE09E) := by decide +kernel

/-- F1: a fetch at 0x0FFF faults, changing nothing else. -/
theorem test_fetch_faults :
    nextOf (step (atPc 0x0FFF)) = some { atPc 0x0FFF with fault := .fetchOutOfBounds } := by decide +kernel
/-- D8: I = 0xFFF, N = 2 faults, and `pc` stays. -/
theorem test_draw_faults :
    (stepOn (writeI State.reset 0x0FFF) 0xD012).map (fun t => (t.fault, t.pc, cellsAtOne t.fb)) =
      some (.spriteReadOutOfBounds, 0x0200, []) := by decide +kernel
/-- F4: 0x0FFE is the last fetchable address. -/
theorem test_last_fetch : (stepOn (atPc 0x0FFE) 0x6001).map (fun t => (readV t 0, t.pc)) = some (0x01, 0x1000) := by
  decide +kernel
/-- F5: no step is taken from a faulted state. -/
theorem test_faulted_run :
    opRun 3 { State.reset with fault := .fetchOutOfBounds } = { State.reset with fault := .fetchOutOfBounds } := by
  decide +kernel
/-- The codes of R31. -/
theorem test_fault_codes :
    (FaultStatus.noFault.code, FaultStatus.fetchOutOfBounds.code, FaultStatus.spriteReadOutOfBounds.code) = (0, 1, 2) := by
  decide
/-- The information R232 records with D8. -/
theorem test_report_of_a_fault :
    stepReport { withWord 0xD012 with i := 0x0FFF } = some (.fault (.spriteReadOutOfBounds 0x0FFF 2 0x0200)) := by
  decide +kernel

/-- H1: `RESET` keeps memory. -/
theorem test_reset :
    opReset { withWord 0x6000 with i := 0x0ABC, pc := 0x0400, fault := .spriteReadOutOfBounds } = withWord 0x6000 := by
  decide +kernel
/-- H2: `LOAD` writes memory and `pc` only. -/
theorem test_load :
    nextOf (hostOp (.load [0x12, 0x00] 2) { State.reset with i := 0x0ABC, pc := 0x0400 }) =
      some { State.reset with i := 0x0ABC, mem := [(0x200, 0x12), (0x201, 0x00)] } := by decide +kernel
/-- H7: element 66 of the view is the cell (1, 2). -/
theorem test_screen :
    (screenView (writeFb State.reset (writeCell blankFramebuffer 1 2 true)))[66] = 0x01 := by
  simp [screenView, readCell_writeCell]

/-! ## Memory keeps its canonical form -/

theorem test_memory_write_sorts : Memory.write [(0x200, 1), (0x202, 2)] 0x201 3 = [(0x200, 1), (0x201, 3), (0x202, 2)] := by
  decide
theorem test_memory_unsorted_is_refused : Memory.wf [(0x201, 1), (0x200, 2)] = false := by decide
theorem test_memory_beyond_the_end_is_refused : Memory.wf [(0x1000, 1)] = false := by decide

/-! ## Witnesses: for each statement with hypotheses, a state and operands that meet them -/

theorem witness_DecodeInvertsEncode : WellFormed (.unknown0 0xFFF) = true ∧ WellFormed (.drawSprite 0xF 0xF 0xF) = true := by
  decide

theorem witness_StepRunsTheDecodedInstruction :
    (withWord 0x6005).fault = .noFault ∧ (withWord 0x6005).pc.toNat ≤ 0x0FFE ∧
      decode (bytesAtPc (withWord 0x6005)) = .ok (.loadImmediate 0 0x05, []) := ⟨rfl, by decide, rfl⟩

/-- Both clauses at their common boundary, and at the top of 16 bits. -/
theorem witness_FetchIsBigEndianInBounds :
    (atPc 0x0FFE).pc.toNat ≤ 0x0FFE ∧ 0x0FFE < (atPc 0x0FFF).pc.toNat ∧ 0x0FFE < (atPc 0xFFFF).pc.toNat := by decide

theorem witness_EveryWordExecutes :
    State.reset.fault = .noFault ∧ { State.reset with fault := .fetchOutOfBounds }.fault ≠ .noFault := by decide

/-- A next state for each clause of the table: jump, skip taken and not, a draw in and out of bounds, another word. -/
theorem witness_NextPcOfEveryInstruction :
    (∃ t, exec (.jump 0xFFF) State.reset = .next t) ∧
    (∃ t, exec (.skipIfEqual 0 0) State.reset = .next t ∧ readV State.reset 0 = 0) ∧
    (∃ t, exec (.skipIfEqual 0 1) State.reset = .next t ∧ readV State.reset 0 ≠ 1) ∧
    (∃ t, exec (.drawSprite 0 0 15) (writeI State.reset 0x0FF1) = .next t) ∧
    (∃ t, exec (.drawSprite 0 0 15) (writeI State.reset 0x0FF2) = .next t) ∧
    (∃ t, exec (.misc 0) State.reset = .next t) := by
  refine ⟨⟨_, rfl⟩, ⟨_, rfl, by decide⟩, ⟨_, rfl, by decide⟩, ?_, ?_, ⟨_, rfl⟩⟩
  · exact ⟨_, ((execDrawSprite_cases 0 0 15 (writeI State.reset 0x0FF1)).resolve_left (fun h => absurd h.1 (by decide))).2⟩
  · exact ⟨_, ((execDrawSprite_cases 0 0 15 (writeI State.reset 0x0FF2)).resolve_right (fun h => absurd h.1 (by decide))).2⟩

theorem witness_JumpSetsPcToItsField :
    State.reset.pc.toNat = (0x200 : Field12).toNat ∧ (0xFFF : Field12) = 0xFFF ∧ State.reset.fault = .noFault ∧
      fieldOp 0x1FFF = 0x1 := by decide

theorem witness_SkipIfEqualAdvancesByTwoOrFour :
    readV (atPc 0x0FFC) 0xF = 0 ∧ readV (atPc 0x0FFC) 0xF ≠ 0xFF ∧ (atPc 0x0FFC).fault = .noFault ∧
      0x0FFC ≤ (atPc 0x0FFC).pc.toNat ∧ (atPc 0x0FFE).pc.toNat ≤ 0x0FFE ∧ fieldOp 0x3FFF = 0x3 := by decide

theorem witness_LoadImmediateStoresItsByte : (0xE : RegIdx) ≠ 0xF ∧ fieldOp 0x6F00 = 0x6 := by decide

theorem witness_AddImmediateWrapsWithoutCarry : (0xFF : Byte) = 0xFF ∧ (0xF : RegIdx) ≠ 0x1 ∧ fieldOp 0x7FFF = 0x7 := by
  decide

theorem witness_LoadIndexStoresItsField : fieldOp 0xAFFF = 0xA := by decide

/-- In bounds by either hypothesis, at the last address; a cell in the sprite at its last row and column, wrapped, and
a cell outside it; and a word of the family with three different fields. -/
theorem witness_DrawSpriteTogglesItsCells :
    fieldOp 0xDF01 = 0xD ∧ ((0 : Nibble).toNat = 0) ∧ (writeI State.reset 0x0FF1).i.toNat + ((15 : Nibble).toNat - 1) ≤ 0x0FFF ∧
    ((18 : Fin 32).val = ((readV (writeV State.reset 0 0x24) 0).toNat % 32 + 14) % 32 ∧
      (43 : Fin 64).val = ((readV (writeV State.reset 0 0x24) 0).toNat % 64 + 7) % 64) ∧
    (∀ r c : Nat, r < 1 → c < 8 →
      ¬ ((1 : Fin 32).val = ((readV State.reset 0).toNat % 32 + r) % 32 ∧
        (0 : Fin 64).val = ((readV State.reset 0).toNat % 64 + c) % 64)) := by
  refine ⟨by decide, by decide, by decide, by decide, ?_⟩
  rintro r c hr - ⟨h, -⟩
  rw [readV_reset] at h
  simp at h
  omega

theorem witness_DrawSpriteFaultsBeforeDrawing :
    1 ≤ (15 : Nibble).toNat ∧ 0x0FFF < (writeI State.reset 0x0FF2).i.toNat + ((15 : Nibble).toNat - 1) ∧
    (writeI State.reset 0x0FF2).fault = .noFault ∧ (writeI State.reset 0x0FF2).i.toNat ≤ 0x0FFF ∧
    exec (.drawSprite 0 0 15) (writeI State.reset 0x0FF2) =
      .next { writeI State.reset 0x0FF2 with fault := .spriteReadOutOfBounds } :=
  ⟨by decide, by decide, rfl, by decide,
    ((execDrawSprite_cases 0 0 15 (writeI State.reset 0x0FF2)).resolve_right (fun h => absurd h.1 (by decide))).2⟩

/-- V1 = VF, so that the second clause's registers differ and hold one value. -/
theorem witness_DrawSpriteWritesNoRegister :
    (∃ t, exec (.drawSprite 1 1 1) State.reset = .next t) ∧
    readV State.reset 1 = readV State.reset 0xF ∧ (∃ t, exec (.drawSprite 0xF 0xF 1) State.reset = .next t) :=
  ⟨⟨_, ((execDrawSprite_cases 1 1 1 State.reset).resolve_left (fun h => absurd h.1 (by decide))).2⟩, by decide,
    ⟨_, ((execDrawSprite_cases 0xF 0xF 1 State.reset).resolve_left (fun h => absurd h.1 (by decide))).2⟩⟩

/-- 70 and 6 as columns, 33 and 1 as rows (S7, R153). -/
theorem witness_CongruentCoordinatesDrawAlike :
    (writeV (writeV State.reset 0 70) 1 33).fb = (writeV (writeV State.reset 2 6) 3 1).fb ∧
    (readV (writeV (writeV State.reset 0 70) 1 33) 0).toNat % 64 =
      (readV (writeV (writeV State.reset 2 6) 3 1) 2).toNat % 64 ∧
    (readV (writeV (writeV State.reset 0 70) 1 33) 1).toNat % 32 =
      (readV (writeV (writeV State.reset 2 6) 3 1) 3).toNat % 32 ∧
    (∃ t, exec (.drawSprite 0 1 1) (writeV (writeV State.reset 0 70) 1 33) = .next t) ∧
    (∃ t, exec (.drawSprite 2 3 1) (writeV (writeV State.reset 2 6) 3 1) = .next t) :=
  ⟨rfl, by decide, by decide, ⟨_, ((execDrawSprite_cases 0 1 1 _).resolve_left (fun h => absurd h.1 (by decide))).2⟩,
    ⟨_, ((execDrawSprite_cases 2 3 1 _).resolve_left (fun h => absurd h.1 (by decide))).2⟩⟩

/-- The state right after the first draw meets every hypothesis on the second. -/
theorem witness_SpriteDrawnTwiceErasesItself :
    ∃ t t', exec (.drawSprite 0 1 15) State.reset = .next t ∧ t.i = State.reset.i ∧
      readV t 0 = readV State.reset 0 ∧ readV t 1 = readV State.reset 1 ∧ SameMemory State.reset t ∧
      exec (.drawSprite 0 1 15) t = .next t' :=
  ⟨_, _, ((execDrawSprite_cases 0 1 15 State.reset).resolve_left (fun h => absurd h.1 (by decide))).2, rfl, rfl, rfl, fun _ => rfl,
    ((execDrawSprite_cases 0 1 15 _).resolve_left (fun h => absurd h.1 (by decide))).2⟩

theorem witness_UnsupportedInstructionsOnlyReport :
    diagClass .ret = some .ret ∧ diagClass (.call 0xFFF) = some .call ∧ diagClass (.misc 0) = some .misc ∧
      diagClass (.unknownE 0) = some .unknown := by decide

theorem witness_ReturnCallMiscAreReportedNoOps : fieldOp 0x2000 = 0x2 ∧ fieldOp 0xFFFF = 0xF := by decide

theorem witness_UnknownFamiliesAreReportedNoOps :
    (fieldOp 0x00E1 = 0x0 ∧ (0x00E1 : Word) ≠ 0x00E0 ∧ (0x00E1 : Word) ≠ 0x00EE) ∧
      fieldOp 0xEFFF ∈ [(0x4 : Nibble), 0x5, 0x8, 0x9, 0xB, 0xC, 0xE] := by decide

/-- A next state of each kind of register effect. -/
theorem witness_RegistersChangeOnlyByTheirOwnInstruction :
    (∃ t, exec (.loadImmediate 0xF 1) State.reset = .next t) ∧ (∃ t, exec (.addImmediate 0xF 1) State.reset = .next t) ∧
      (∃ t, exec (.unknown8 0x124) State.reset = .next t) := ⟨⟨_, rfl⟩, ⟨_, rfl⟩, ⟨_, rfl⟩⟩

theorem witness_IndexRegisterUse :
    (∃ t, exec (.loadIndex 0xFFF) State.reset = .next t) ∧
    ((∀ n, HostOp.reset ≠ .run n) ∧ ∃ t, hostOp .reset State.reset = .next t) ∧
    ((∀ n, HostOp.load [] 0 ≠ .run n) ∧ ∃ t, hostOp (.load [] 0) State.reset = .next t) ∧
    ((∀ x y n, Instr.loadIndex 0xFFF ≠ .drawSprite x y n)) :=
  ⟨⟨_, rfl⟩, ⟨fun _ => by simp, ⟨_, rfl⟩⟩, ⟨fun _ => by simp, ⟨_, rfl⟩⟩, fun _ _ _ => by simp⟩

theorem witness_NoInstructionWritesMemory : ∃ t, exec (.misc 0x155) State.reset = .next t := ⟨_, rfl⟩

theorem witness_CellsChangeOnlyByDisplayInstructions :
    Instr.unknown0 0x0E1 ≠ .clearScreen ∧ (∀ x y n, Instr.unknown0 0x0E1 ≠ .drawSprite x y n) ∧
      ∃ t, exec (.unknown0 0x0E1) State.reset = .next t := ⟨by simp, fun _ _ _ => by simp, ⟨_, rfl⟩⟩

/-- Both disjuncts: an instruction that keeps the fault status, and the draw that faults. -/
theorem witness_FaultStatusAndChannelEffect :
    (∃ t, exec (.call 0x123) State.reset = .next t) ∧
    (∃ t, exec (.drawSprite 0 0 2) (writeI State.reset 0x0FFF) = .next t) :=
  ⟨⟨_, rfl⟩, ⟨_, ((execDrawSprite_cases 0 0 2 (writeI State.reset 0x0FFF)).resolve_right (fun h => absurd h.1 (by decide))).2⟩⟩

theorem witness_EventsAreNeverRead :
    (∃ t, step (atPc 0x0FFF) = .next t) ∧
    (∃ f, step { State.reset with fault := .fetchOutOfBounds } = .fault f) := ⟨⟨_, rfl⟩, ⟨_, rfl⟩⟩

theorem witness_FetchOutsideMemoryFaults :
    (atPc 0x0FFF).fault = .noFault ∧ 0x0FFE < (atPc 0x0FFF).pc.toNat := by decide

/-- A step that faults on its fetch, one whose draw faults, and one that does not fault. -/
theorem witness_FaultsExactlyWhenOutOfBounds :
    (∃ t, step (atPc 0x0FFF) = .next t ∧ 0x0FFE < (atPc 0x0FFF).pc.toNat) ∧
    ((∃ t, step { withWord 0xD012 with i := 0x0FFF } = .next t) ∧
      decode (bytesAtPc { withWord 0xD012 with i := 0x0FFF }) = .ok (.drawSprite 0 1 2, []) ∧
      0x0FFF < ({ withWord 0xD012 with i := 0x0FFF } : State).i.toNat + ((2 : Nibble).toNat - 1)) ∧
    (∃ t, step (withWord 0x6005) = .next t) :=
  ⟨⟨_, rfl, by decide⟩, ⟨⟨_, rfl⟩, rfl, by decide⟩, ⟨_, rfl⟩⟩

theorem witness_OnlyResetLeavesTheFaultedState :
    { State.reset with fault := .spriteReadOutOfBounds }.fault ≠ .noFault ∧ HostOp.clear ≠ .reset ∧
      ∃ t, hostOp .clear { State.reset with fault := .spriteReadOutOfBounds } = .next t := ⟨by decide, by simp, ⟨_, rfl⟩⟩

/-- An unfaulted state for each case of a report: executed, unsupported, and the two faults. -/
theorem witness_ReportSaysWhatTheStepDid :
    ((withWord 0x6005).fault = .noFault ∧ stepReport (withWord 0x6005) = some .executed) ∧
    ((withWord 0x00EE).fault = .noFault ∧ stepReport (withWord 0x00EE) = some (.unsupported ⟨.ret, 0x00EE⟩)) ∧
    ((atPc 0x0FFF).fault = .noFault ∧ stepReport (atPc 0x0FFF) = some (.fault (.fetchOutOfBounds 0x0FFF))) ∧
    (({ withWord 0xD012 with i := 0x0FFF } : State).fault = .noFault ∧
      stepReport { withWord 0xD012 with i := 0x0FFF } = some (.fault (.spriteReadOutOfBounds 0x0FFF 2 0x0200))) := by
  decide +kernel

/-- A state with `I` at its limit and one with `pc` at its limit, each of which steps. -/
theorem witness_StepKeepsInvariant :
    Inv { withWord 0xA000 with i := 0x0FFF } ∧ (∃ t, step { withWord 0xA000 with i := 0x0FFF } = .next t) ∧
    Inv (atPc 0x1002) ∧ (∃ t, step (atPc 0x1002) = .next t) :=
  ⟨by decide, ⟨_, rfl⟩, by decide, ⟨_, rfl⟩⟩

/-- A state with `I` at its limit, and a `LOAD` and a `RUN` from it. -/
theorem witness_HostOperationsKeepInvariant :
    Inv { State.reset with i := 0x0FFF } ∧
    (∃ t, hostOp (.load [0x60, 0x05] 2) { State.reset with i := 0x0FFF } = .next t) ∧
    (∃ t, hostOp (.run 1) { State.reset with i := 0x0FFF } = .next t) := ⟨by decide, ⟨_, rfl⟩, ⟨_, rfl⟩⟩

/-- A reachable state other than power-on: an image loaded and run. -/
theorem witness_ReachableStatesMeetInvariant : ∃ s, Reachable s ∧ s.mem = [(0x200, 0x60), (0x201, 0x05)] ∧ readV s 0 = 5 :=
  ⟨_, .move (.run 1) (.move (.load [0x60, 0x05] 2) .powerOn rfl) rfl, rfl, by decide +kernel⟩

theorem witness_ReservedAreaKeepsPowerOnBytes : Reachable State.reset ∧ 0x1FF < 0x200 := ⟨.powerOn, by decide⟩

theorem witness_CanonicalMemoriesReadingAlikeAreEqual :
    Memory.wf [(0x000, 1), (0xFFF, 2)] = true ∧
      (∀ (init : Nat → Byte) (a : Nat), Memory.readWith init [(0x000, 1), (0xFFF, 2)] a =
        Memory.readWith init (Memory.write [(0xFFF, 2)] 0x000 1) a) := ⟨by decide, fun _ _ => rfl⟩

theorem witness_LoadPlacesTheImage : 3584 ≤ 3584 ∧ 3584 ≤ (List.replicate 3584 (0 : Byte)).length ∧ 0 < 3584 ∧
    0x1FF < 0x200 ∧ 0x200 + 3584 ≤ 0x1000 := by
  rw [List.length_replicate]; decide

theorem witness_LoadOutsideItsPreconditionIsRefused : 3584 < 3585 ∨ ([] : List Byte).length < 1 := by decide

theorem witness_LoadOutsideItsPreconditionIsRefused_short : ¬ 3584 < 1 ∧ ([] : List Byte).length < 1 := by decide

theorem witness_OnlyLoadWritesMemory :
    (∀ bytes size, HostOp.run 7 ≠ .load bytes size) ∧ ∃ t, hostOp (.run 7) State.reset = .next t :=
  ⟨fun _ _ => by simp, ⟨_, rfl⟩⟩

theorem witness_RunsCompose : ∃ t, step (withWord 0x6005) = .next t := ⟨_, rfl⟩

theorem witness_JumpToItselfHoldsTheState :
    (withWord 0x1200).fault = .noFault ∧ (withWord 0x1200).pc.toNat ≤ 0x0FFE ∧
      decode (bytesAtPc (withWord 0x1200)) = .ok (.jump 0x200, []) ∧
      (0x200 : Field12).toNat = (withWord 0x1200).pc.toNat := ⟨rfl, by decide, rfl, by decide⟩

theorem witness_LoadAndResetCommute : ∃ t, hostOp (.load [0x12, 0x00] 2) (atPc 0x400) = .next t := ⟨_, rfl⟩

theorem witness_ScreenViewIsRowMajor : (31 : Fin 32).val * 64 + (63 : Fin 64).val < 2048 := by decide

end Sys2Proof.Tests
end

section
/-! PROOFS. What executing an instruction can do, said once for every instruction, and from it the uses of the index
register `I` (10_state.md R24). -/

namespace Sys2Proof.Machine

/-! ## The effect of an instruction -/

/-- The next states of an instruction at `s`, guards included: one constructor per implemented instruction, two for
draw-sprite (R151), and one for the eleven classes that only report (R180). Tied to the model by
`exec_eq_next_iff`. -/
inductive InstrEffect (s : State) : Instr → State → Prop
  | clearScreen : InstrEffect s .clearScreen (advance (writeFb s blankFramebuffer))
  | jump (nnn : Field12) : InstrEffect s (.jump nnn) (writePc s (addressOperand nnn))
  | skipIfEqual (x : RegIdx) (nn : Byte) :
      InstrEffect s (.skipIfEqual x nn) (advanceBy s (if bytesEqual (readV s x) nn then 4 else 2))
  | loadImmediate (x : RegIdx) (nn : Byte) : InstrEffect s (.loadImmediate x nn) (advance (writeV s x nn))
  | addImmediate (x : RegIdx) (nn : Byte) :
      InstrEffect s (.addImmediate x nn) (advance (writeV s x (addBytes (readV s x) nn)))
  | loadIndex (nnn : Field12) : InstrEffect s (.loadIndex nnn) (advance (writeI s (addressOperand nnn)))
  | drawFault (x y : RegIdx) {n : Nibble} (out : spriteOutOfBounds s n = true) :
      InstrEffect s (.drawSprite x y n) { s with fault := .spriteReadOutOfBounds }
  | draw (x y : RegIdx) {n : Nibble} (inside : spriteOutOfBounds s n = false) :
      InstrEffect s (.drawSprite x y n)
        (advance (writeFb s (drawRows (startColumn s x) (startRow s y) n.toNat (spriteByte s) s.fb)))
  | reported {i : Instr} {cls : DiagClass} (report : diagClass i = some cls) :
      InstrEffect s i (advance (emitDiag s cls (encode i)))

/-- An instruction with a diagnostic class is the common no-operation of that class, carrying its own word (R93,
R180). -/
theorem exec_of_diagClass {i : Instr} {cls : DiagClass} (h : diagClass i = some cls) (s : State) :
    exec i s = unsupported cls (encode i) s := by
  cases i with
  | clearScreen | jump | skipIfEqual | loadImmediate | addImmediate | loadIndex | drawSprite => cases h
  | ret | unknown0 | call | unknown4 | unknown5 | unknown8 | unknown9 | unknownB | unknownC | unknownE | misc =>
    cases h
    rfl

/-- Every instruction has its effect as an outcome of `exec`. -/
theorem InstrEffect.exec_eq {i : Instr} {s t : State} (e : InstrEffect s i t) : exec i s = .next t := by
  cases e with
  | clearScreen | jump | skipIfEqual | loadImmediate | addImmediate | loadIndex => rfl
  | drawFault x y out =>
    exact ((execDrawSprite_cases x y _ s).resolve_right fun h => by simp [out] at h).2
  | draw x y inside =>
    exact ((execDrawSprite_cases x y _ s).resolve_left fun h => by simp [inside] at h).2
  | reported report => exact exec_of_diagClass report s

/-- Every instruction has an effect at every state: none stops or is refused. -/
theorem exists_instrEffect (i : Instr) (s : State) : ∃ t, InstrEffect s i t := by
  cases i with
  | clearScreen => exact ⟨_, .clearScreen⟩
  | jump nnn => exact ⟨_, .jump nnn⟩
  | skipIfEqual x nn => exact ⟨_, .skipIfEqual x nn⟩
  | loadImmediate x nn => exact ⟨_, .loadImmediate x nn⟩
  | addImmediate x nn => exact ⟨_, .addImmediate x nn⟩
  | loadIndex nnn => exact ⟨_, .loadIndex nnn⟩
  | drawSprite x y n =>
    cases h : spriteOutOfBounds s n with
    | true => exact ⟨_, .drawFault x y h⟩
    | false => exact ⟨_, .draw x y h⟩
  | ret | unknown0 | call | unknown4 | unknown5 | unknown8 | unknown9 | unknownB | unknownC | unknownE | misc =>
    exact ⟨_, .reported rfl⟩

/-- The next states of `exec` are exactly the effects. -/
theorem exec_eq_next_iff {i : Instr} {s t : State} : exec i s = .next t ↔ InstrEffect s i t := by
  refine ⟨fun h => ?_, InstrEffect.exec_eq⟩
  obtain ⟨u, e⟩ := exists_instrEffect i s
  have htu : t = u := Host.Outcome.next.inj (h.symm.trans e.exec_eq)
  exact htu ▸ e

/-! ## The index register -/

/-- The address immediate is the field's number: it is zero-extended (R84). -/
@[simp] theorem addressOperand_toNat (nnn : Field12) : (addressOperand nnn).toNat = nnn.toNat :=
  BitVec.toNat_setWidth_of_le (by decide)

/-- No instruction but load-index writes `I` (R24). -/
theorem InstrEffect.keeps_i {i : Instr} {s t : State} (e : InstrEffect s i t) (hi : ∀ nnn, i ≠ .loadIndex nnn) :
    t.i = s.i := by
  cases e with
  | loadIndex nnn => exact absurd rfl (hi nnn)
  | clearScreen | jump | skipIfEqual | loadImmediate | addImmediate | drawFault | draw | reported => rfl

/-- load-index leaves its zero-extended field in `I` (R24). -/
theorem InstrEffect.loadIndex_i_toNat {nnn : Field12} {s t : State} (e : InstrEffect s (.loadIndex nnn) t) :
    t.i.toNat = nnn.toNat := by
  cases e with
  | loadIndex => simp
  | reported report => cases report

/-- No instruction but draw-sprite reads `I`: at another `I` it has an effect that differs at most in `I` (R24). -/
theorem InstrEffect.of_other_i {i : Instr} {s t : State} (e : InstrEffect s i t) (w : Word)
    (hi : ∀ x y n, i ≠ .drawSprite x y n) : ∃ u, InstrEffect (writeI s w) i u ∧ u = writeI t u.i := by
  cases e with
  | clearScreen => exact ⟨_, .clearScreen, rfl⟩
  | jump nnn => exact ⟨_, .jump nnn, rfl⟩
  | skipIfEqual x nn => exact ⟨_, .skipIfEqual x nn, rfl⟩
  | loadImmediate x nn => exact ⟨_, .loadImmediate x nn, rfl⟩
  | addImmediate x nn => exact ⟨_, .addImmediate x nn, rfl⟩
  | loadIndex nnn => exact ⟨_, .loadIndex nnn, rfl⟩
  | drawFault x y => exact absurd rfl (hi x y _)
  | draw x y => exact absurd rfl (hi x y _)
  | reported report => exact ⟨_, .reported report, rfl⟩

/-- Of the host's operations other than `RUN`, only `RESET` writes `I`, with 0 (R24). -/
theorem hostOp_i (op : HostOp) (s t : State) (hrun : ∀ n, op ≠ .run n) (h : hostOp op s = .next t) :
    t.i = if op = .reset then 0 else s.i := by
  cases op with
  | run n => exact absurd rfl (hrun n)
  | load bytes size =>
    obtain ⟨-, -, rfl⟩ := opLoad_cases h
    rfl
  | reset | clear | screen | width | height =>
    cases h
    rfl

/-- Settles O26, by the effect of the instruction: what it leaves in `I` (`InstrEffect.loadIndex_i_toNat`,
`InstrEffect.keeps_i`) and that only draw-sprite's depends on `I` (`InstrEffect.of_other_i`); the host's writes are
`hostOp_i`. -/
theorem indexRegisterUse : Obligations.IndexRegisterUse := by
  refine ⟨fun i s t h => ?_, hostOp_i, fun i s t w hi h => ?_⟩
  · have e := exec_eq_next_iff.mp h
    split
    · exact e.loadIndex_i_toNat
    · next hi => rw [e.keeps_i hi]
  · obtain ⟨u, e, hu⟩ := (exec_eq_next_iff.mp h).of_other_i w hi
    exact ⟨u, e.exec_eq, hu⟩

end Sys2Proof.Machine
end

section
/-! PROOFS. Decode outside family 0, and the result, completion and frame of the two loads (41_register_alu.md R130,
R132). -/

namespace Sys2Proof

/-- Both exact words are of family 0, so the family alone decodes a word of any other (R85). -/
theorem decodeWord_of_fieldOp_ne_zero {w : Word} (h : fieldOp w ≠ 0x0) : decodeWord w = decodeFamily (fieldOp w) w := by
  have hclear : w ≠ 0x00E0 := by
    rintro rfl
    exact h rfl
  have hret : w ≠ 0x00EE := by
    rintro rfl
    exact h rfl
  rw [decodeWord, if_neg hclear, if_neg hret]

/-- Family 6 is load-immediate (R85). -/
theorem decodeWord_of_family6 {w : Word} (h : fieldOp w = 0x6) :
    decodeWord w = .loadImmediate (fieldX w) (fieldNN w) := by
  rw [decodeWord_of_fieldOp_ne_zero (by simp [h]), h]
  rfl

/-- Family A is load-index (R85). -/
theorem decodeWord_of_familyA {w : Word} (h : fieldOp w = 0xA) : decodeWord w = .loadIndex (fieldNNN w) := by
  rw [decodeWord_of_fieldOp_ne_zero (by simp [h]), h]
  rfl

end Sys2Proof

namespace Sys2Proof.Machine

/-- The common advance moves `pc` by 2, modulo 65536 (R29, R111). -/
theorem advancedBy_advance (s : State) : AdvancedBy 2 s (advance s) := BitVec.toNat_add s.pc 2

/-- Settles O12: the effect of load-immediate is one register write and the advance; the registers are read back by
`readV_writeV_same` and `readV_writeV_other`. -/
theorem loadImmediateStoresItsByte : Obligations.LoadImmediateStoresItsByte := by
  refine ⟨fun x nn s => ⟨advance (writeV s x nn), (InstrEffect.loadImmediate x nn).exec_eq, ?_, fun r hr => ?_,
    advancedBy_advance (writeV s x nn), rfl⟩, fun w => decodeWord_of_family6⟩
  · exact readV_writeV_same s x nn
  · exact readV_writeV_other s nn hr

/-- Settles O14: the effect of load-index is one write of `I` and the advance, and the address operand is its field
zero-extended (`addressOperand_toNat`). -/
theorem loadIndexStoresItsField : Obligations.LoadIndexStoresItsField :=
  ⟨fun nnn s => ⟨advance (writeI s (addressOperand nnn)), (InstrEffect.loadIndex nnn).exec_eq,
    addressOperand_toNat nnn, advancedBy_advance (writeI s (addressOperand nnn)), rfl⟩,
    fun _ => decodeWord_of_familyA⟩

end Sys2Proof.Machine
end

section
/-! PROOFS. draw-sprite and the general registers: it writes none, and reads two of them by value alone (42_display.md
R155); and draw-sprite of no rows (R156). -/

namespace Sys2Proof.Machine

/-- draw-sprite leaves the register file, whether it draws or faults (R155). -/
theorem InstrEffect.drawSprite_keeps_v {x y : RegIdx} {n : Nibble} {s t : State}
    (e : InstrEffect s (.drawSprite x y n) t) : t.v = s.v := by
  cases e with
  | drawFault | draw => rfl
  | reported report => cases report

/-- draw-sprite reads its coordinate registers only through their values, whatever their numbers (R151, R155). -/
theorem exec_drawSprite_congr {x y x' y' : RegIdx} {s : State} (n : Nibble) (hx : readV s x = readV s x')
    (hy : readV s y = readV s y') : exec (.drawSprite x y n) s = exec (.drawSprite x' y' n) s := by
  have hcol : startColumn s x = startColumn s x' := by rw [startColumn, startColumn, hx]
  have hrow : startRow s y = startRow s y' := by rw [startRow, startRow, hy]
  change execDrawSprite x y n s = execDrawSprite x' y' n s
  rw [execDrawSprite, execDrawSprite, hcol, hrow]

/-- Settles O19: the register file is kept by `InstrEffect.drawSprite_keeps_v`, and two draw-sprites of equal
coordinate values have one outcome by `exec_drawSprite_congr`. -/
theorem drawSpriteWritesNoRegister : Obligations.DrawSpriteWritesNoRegister := by
  refine ⟨fun x y n s t h => ?_, fun x y x' y' n s t t' hx hy h h' => ?_⟩
  · exact readV_congr (exec_eq_next_iff.mp h).drawSprite_keeps_v
  · rw [exec_drawSprite_congr n hx hy] at h
    exact Host.Outcome.next.inj (h.symm.trans h')

/-- With no rows there is no byte to read, so the bounds test passes whatever `I` is (R156, R159). -/
@[simp] theorem spriteOutOfBounds_zero (s : State) : spriteOutOfBounds s 0 = false := by
  simp [spriteOutOfBounds]

/-- Settles O18: the bounds test passes (`spriteOutOfBounds_zero`), and the drawing of no rows is the framebuffer as it
was (`drawRows_zero`). -/
theorem drawSpriteOfNoRows : Obligations.DrawSpriteOfNoRows := by
  intro x y s
  calc exec (.drawSprite x y 0) s
    _ = .next (advance (writeFb s (drawRows (startColumn s x) (startRow s y) 0 (spriteByte s) s.fb))) :=
      (InstrEffect.draw x y (spriteOutOfBounds_zero s)).exec_eq
    _ = .next { s with pc := s.pc + 2 } := by
      rw [drawRows_zero]
      rfl

end Sys2Proof.Machine
end

section
/-! PROOFS. Decoder, encoder and opcode table (30_encoding.md sections 2 and 3): each undoes the other, the table names
what the decoder gives, and the diagnostic class of every word (section 5). -/

namespace Sys2Proof

/-! ## The decoder after the encoder -/

/-- Two packed words of one family are equal only with equal low bits. -/
theorem packWord_inj {op : Nibble} {low low' : Field12} : packWord op low = packWord op low' ↔ low = low' := by
  refine ⟨fun h => ?_, congrArg _⟩
  simpa using congrArg fieldNNN h

/-- A word of a family other than 0 decodes by that family (R85). -/
theorem decodeWord_of_family {w : Word} {op : Nibble} (h : fieldOp w = op) (hop : op ≠ 0x0) :
    decodeWord w = decodeFamily op w := by
  subst h
  exact decodeWord_of_fieldOp_ne_zero hop

/-- A packed word outside family 0 decodes by its family (R85). -/
theorem decodeWord_packWord {op : Nibble} (low : Field12) (h : op ≠ 0x0) :
    decodeWord (packWord op low) = decodeFamily op (packWord op low) :=
  decodeWord_of_family (fieldOp_packWord op low) h

/-- A word that is neither exact word decodes by its family (R85). -/
theorem decodeWord_of_ne {w : Word} (hclear : w ≠ 0x00E0) (hret : w ≠ 0x00EE) :
    decodeWord w = decodeFamily (fieldOp w) w := by
  rw [decodeWord, if_neg hclear, if_neg hret]

/-- The words as the decoder tells them apart: the two exact words, and those that decode by their family (R85). -/
theorem word_cases {P : Word → Prop} (clear : P 0x00E0) (ret : P 0x00EE)
    (family : ∀ w : Word, w ≠ 0x00E0 → w ≠ 0x00EE → P w) (w : Word) : P w := by
  by_cases hclear : w = 0x00E0
  · exact hclear ▸ clear
  · by_cases hret : w = 0x00EE
    · exact hret ▸ ret
    · exact family w hclear hret

/-- A packed word of family 0 other than the two exact words is unknown (R85, R184). -/
theorem decodeWord_packWord_zero {low : Field12} (hclear : low ≠ clearScreenLow) (hret : low ≠ returnLow) :
    decodeWord (packWord 0x0 low) = .unknown0 low := by
  rw [decodeWord_of_ne (packWord_inj.not.mpr hclear) (packWord_inj.not.mpr hret), fieldOp_packWord]
  exact congrArg Instr.unknown0 (fieldNNN_packWord 0x0 low)

/-- The decoder inverts the encoder on every well-formed instruction. -/
theorem decodeWord_encode {i : Instr} (h : WellFormed i = true) : decodeWord (encode i) = i := by
  cases i with
  | clearScreen | ret => rfl
  | unknown0 payload =>
    simp only [WellFormed, Bool.and_eq_true, bne_iff_ne] at h
    exact decodeWord_packWord_zero h.1 h.2
  | jump | call | skipIfEqual | unknown4 | unknown5 | loadImmediate | addImmediate | unknown8 | unknown9 | loadIndex
  | unknownB | unknownC | drawSprite | unknownE | misc => simp [encode, decodeWord_packWord, decodeFamily]

/-- Settles O1: the bytes of a word are read as that word (`decode_bytesOfWord`), and the decoder inverts the encoder
on words (`decodeWord_encode`). -/
theorem decodeInvertsEncode : Obligations.DecodeInvertsEncode := by
  intro i rest h
  rw [encodeBytes, Machine.decode_bytesOfWord, decodeWord_encode h]

/-! ## The encoder after the decoder -/

/-- Decoding by family `op` loses no low bit. -/
theorem encode_decodeFamily (op : Nibble) (w : Word) : encode (decodeFamily op w) = packWord op (fieldNNN w) := by
  obtain ⟨k⟩ := op
  fin_cases k <;> simp [decodeFamily, encode, packXNN_fields, packXYN_fields]

/-- The encoder inverts the decoder on every word. -/
theorem encode_decodeWord (w : Word) : encode (decodeWord w) = w := by
  induction w using word_cases with
  | clear | ret => rfl
  | family w hclear hret => rw [decodeWord_of_ne hclear hret, encode_decodeFamily, packWord_fields]

/-- Only an unknown-0 term with the low bits of an exact word is ill-formed (R184). -/
theorem wellFormed_of_ne {i : Instr} (hclear : i ≠ .unknown0 clearScreenLow) (hret : i ≠ .unknown0 returnLow) :
    WellFormed i = true := by
  cases i with
  | unknown0 payload => simpa [WellFormed] using And.intro hclear hret
  | clearScreen | ret | jump | call | skipIfEqual | unknown4 | unknown5 | loadImmediate | addImmediate | unknown8
  | unknown9 | loadIndex | unknownB | unknownC | drawSprite | unknownE | misc => rfl

/-- Every word decodes to a well-formed instruction: the two ill-formed terms would have to come from an exact word,
which decodes otherwise. -/
theorem wellFormed_decodeWord (w : Word) : WellFormed (decodeWord w) = true := by
  have hw := encode_decodeWord w
  refine wellFormed_of_ne (fun h => ?_) fun h => ?_
  all_goals
    rw [h] at hw
    subst hw
    exact absurd h (by decide)

/-- Settles O2, by `encode_decodeWord` and `wellFormed_decodeWord`. -/
theorem encodeInvertsDecode : Obligations.EncodeInvertsDecode :=
  fun w => ⟨encode_decodeWord w, wellFormed_decodeWord w⟩

/-! ## The opcode table -/

/-- Every row of the table fixes the family selector alone or one of the two exact words (R85). -/
theorem opcodeTable_masks : ∀ r ∈ opcodeTable,
    r.mask = 0xF000 ∨ r.mask = 0xFFFF ∧ (r.bits = 0x00E0 ∨ r.bits = 0x00EE) := by decide

/-- For a word that is neither exact word, a row reads the family selector alone: the exact rows reject it, and the
others mask the low bits away. -/
theorem accepts_of_ne {r : OpcodeRow} (hr : r ∈ opcodeTable) {w : Word} (hclear : w ≠ 0x00E0) (hret : w ≠ 0x00EE) :
    r.accepts w = r.accepts (packWord (fieldOp w) 0) := by
  obtain hmask | ⟨hmask, hbits⟩ := opcodeTable_masks r hr
  · simp only [OpcodeRow.accepts, hmask, and_familyMask, fieldOp_packWord]
  · have hlow (low : Field12) (h0 : 0 ≠ low) : packWord (fieldOp w) 0 ≠ packWord 0x0 low := fun h =>
      h0 (by simpa using congrArg fieldNNN h)
    have hclear' : packWord (fieldOp w) 0 ≠ 0x00E0 := hlow clearScreenLow (by decide)
    have hret' : packWord (fieldOp w) 0 ≠ 0x00EE := hlow returnLow (by decide)
    simp only [OpcodeRow.accepts, hmask, and_wordMask]
    obtain hbits | hbits := hbits
    · rw [hbits, beq_false_of_ne hclear, beq_false_of_ne hclear']
    · rw [hbits, beq_false_of_ne hret, beq_false_of_ne hret']

/-- For a word that is neither exact word, the table reads the family selector alone. -/
theorem tableMnemonic_of_ne {w : Word} (hclear : w ≠ 0x00E0) (hret : w ≠ 0x00EE) :
    tableMnemonic w = tableMnemonic (packWord (fieldOp w) 0) := by
  rw [tableMnemonic, tableMnemonic, List.find?_congr fun r hr => accepts_of_ne hr hclear hret]

/-- The table's row for a family names what the decoder gives for that family. -/
theorem tableMnemonic_family (op : Nibble) (w : Word) :
    tableMnemonic (packWord op 0) = some (decodeFamily op w).mnemonic := by
  obtain ⟨k⟩ := op
  fin_cases k <;> rfl

/-- Settles O3: the two exact words by computation, every other word by its family (`tableMnemonic_of_ne`,
`tableMnemonic_family`). -/
theorem decoderAgreesWithOpcodeTable : Obligations.DecoderAgreesWithOpcodeTable := by
  intro w
  induction w using word_cases with
  | clear | ret => rfl
  | family w hclear hret =>
    rw [tableMnemonic_of_ne hclear hret, decodeWord_of_ne hclear hret]
    exact tableMnemonic_family (fieldOp w) w

/-! ## The diagnostic classes -/

namespace Machine

/-- The diagnostic class of a word decoded by its family (R93). -/
theorem diagClass_decodeFamily (op : Nibble) (w : Word) : diagClass (decodeFamily op w) =
    if op ∈ [0x1, 0x3, 0x6, 0x7, 0xA, 0xD] then none
    else if op = 0x2 then some .call
    else if op = 0xF then some .misc
    else some .unknown := by
  obtain ⟨k⟩ := op
  fin_cases k <;> rfl

/-- Settles O4: the two exact words by computation, every other word by its family (`diagClass_decodeFamily`). -/
theorem diagnosticClassOfEveryWord : Obligations.DiagnosticClassOfEveryWord := by
  intro w
  induction w using word_cases with
  | clear | ret => rfl
  | family w hclear hret =>
    rw [if_neg hclear, if_neg hret, decodeWord_of_ne hclear hret]
    exact diagClass_decodeFamily (fieldOp w) w

end Machine

/-- Settles O5: eighteen fixed words, decoded by computation. -/
theorem workedExampleWordsDecode : Obligations.WorkedExampleWordsDecode := by
  unfold Obligations.WorkedExampleWordsDecode
  decide

end Sys2Proof
end

section
/-! PROOFS. What an instruction leaves in each piece of the state, said once of its effect: registers, memory,
framebuffer, fault status, events (10_state.md sections 1 and 2), and `pc` (section 4). -/

namespace Sys2Proof.Machine

/-! ## Memory and framebuffer -/

/-- No instruction writes memory (R55). -/
theorem InstrEffect.keeps_mem {i : Instr} {s t : State} (e : InstrEffect s i t) : t.mem = s.mem := by
  cases e with
  | clearScreen | jump | skipIfEqual | loadImmediate | addImmediate | loadIndex | drawFault | draw | reported => rfl

/-- Settles O27, by `InstrEffect.keeps_mem`. -/
theorem noInstructionWritesMemory : Obligations.NoInstructionWritesMemory := by
  intro i s t h a
  rw [(exec_eq_next_iff.mp h).keeps_mem]

/-- No instruction but clear-screen and draw-sprite writes the framebuffer. -/
theorem InstrEffect.keeps_fb {i : Instr} {s t : State} (e : InstrEffect s i t) (hclear : i ≠ .clearScreen)
    (hdraw : ∀ x y n, i ≠ .drawSprite x y n) : t.fb = s.fb := by
  cases e with
  | clearScreen => exact absurd rfl hclear
  | draw x y => exact absurd rfl (hdraw x y _)
  | jump | skipIfEqual | loadImmediate | addImmediate | loadIndex | drawFault | reported => rfl

/-- Settles O28, by `InstrEffect.keeps_fb`. -/
theorem cellsChangeOnlyByDisplayInstructions : Obligations.CellsChangeOnlyByDisplayInstructions := by
  intro i s t hclear hdraw h sy sx
  rw [(exec_eq_next_iff.mp h).keeps_fb hclear hdraw]

/-! ## Registers -/

/-- A register read after a register written: none aliases another (R21). -/
theorem readV_writeV (s : State) (x r : RegIdx) (b : Byte) :
    readV (writeV s x b) r = if r = x then b else readV s r := by
  split
  · next h => rw [h, readV_writeV_same]
  · next h => exact readV_writeV_other s b h

/-- Settles O25: the register file after each effect, the two that write it read back by `readV_writeV`. -/
theorem registersChangeOnlyByTheirOwnInstruction : Obligations.RegistersChangeOnlyByTheirOwnInstruction := by
  refine ⟨readV_writeV, fun i s t h r => ?_⟩
  cases exec_eq_next_iff.mp h with
  | loadImmediate x nn => exact readV_writeV s x r nn
  | addImmediate x nn => exact readV_writeV s x r (addBytes (readV s x) nn)
  | clearScreen | jump | skipIfEqual | loadIndex | drawFault | draw => rfl
  | reported report =>
    cases i with
    | loadImmediate | addImmediate => cases report
    | _ => rfl

/-! ## Fault status and events -/

/-- The bounds test passes exactly when no row of the sprite lies past 0x0FFF (R159). -/
theorem spriteOutOfBounds_eq_false_iff (s : State) (n : Nibble) :
    spriteOutOfBounds s n = false ↔ ¬ (1 ≤ n.toNat ∧ 0x0FFF < s.i.toNat + (n.toNat - 1)) := by
  rw [← spriteOutOfBounds_iff, Bool.not_eq_true]

/-- An instruction takes no fault and leaves the fault status, or is a draw-sprite out of bounds and changes nothing
else (R159, R233). -/
theorem InstrEffect.fault_cases {i : Instr} {s t : State} (e : InstrEffect s i t) :
    (instrFault i s = none ∧ t.fault = s.fault) ∨
      ∃ x y n, i = .drawSprite x y n ∧ spriteOutOfBounds s n = true ∧
        t = { s with fault := .spriteReadOutOfBounds } := by
  cases e with
  | drawFault x y out => exact .inr ⟨x, y, _, rfl, out, rfl⟩
  | draw x y inside => exact .inl ⟨if_neg (by simp [inside]), rfl⟩
  | clearScreen | jump | skipIfEqual | loadImmediate | addImmediate | loadIndex => exact .inl ⟨rfl, rfl⟩
  | reported report =>
    cases i with
    | drawSprite => cases report
    | _ => exact .inl ⟨rfl, rfl⟩

/-- A draw-sprite out of bounds is reported with `I`, `N` and `pc` (R232). -/
theorem instrFault_drawSprite {s : State} {n : Nibble} (x y : RegIdx) (out : spriteOutOfBounds s n = true) :
    instrFault (.drawSprite x y n) s = some (.spriteReadOutOfBounds s.i n s.pc) := if_pos out

/-- An instruction emits its event exactly when it has a diagnostic class (R93, R180). -/
theorem InstrEffect.diag_eq {i : Instr} {s t : State} (e : InstrEffect s i t) :
    t.diag = s.diag ++ ((diagClass i).map fun cls => (⟨cls, encode i⟩ : DiagEvent)).toList := by
  cases e with
  | reported report => simp [report]
  | clearScreen | jump | skipIfEqual | loadImmediate | addImmediate | loadIndex | drawFault | draw =>
    exact (List.append_nil s.diag).symm

/-- Settles O29, by `InstrEffect.fault_cases` and `InstrEffect.diag_eq`. -/
theorem faultStatusAndChannelEffect : Obligations.FaultStatusAndChannelEffect := by
  intro i s t h
  have e := exec_eq_next_iff.mp h
  refine ⟨?_, ?_⟩
  · obtain ⟨-, hkeep⟩ | ⟨x, y, n, hi, out, rfl⟩ := e.fault_cases
    · exact .inl hkeep
    · exact .inr ⟨rfl, x, y, n, hi, (spriteOutOfBounds_iff s n).mp out⟩
  · rw [e.diag_eq]
    cases diagClass i <;> rfl

/-! ## The program counter -/

/-- An advance moves `pc` by its distance, modulo 65536 (R29). -/
theorem advancedBy_advanceBy (s : State) (k : Word) : AdvancedBy k.toNat s (advanceBy s k) := BitVec.toNat_add s.pc k

/-- The one comparison is equality (R133). -/
@[simp] theorem bytesEqual_iff (a b : Byte) : bytesEqual a b = true ↔ a = b := beq_iff_eq

/-- Settles O9: the `pc` of each effect. A reported instruction is none of the three with a row of their own. -/
theorem nextPcOfEveryInstruction : Obligations.NextPcOfEveryInstruction := by
  intro i s t h
  cases exec_eq_next_iff.mp h with
  | clearScreen | loadImmediate | addImmediate | loadIndex => exact advancedBy_advance s
  | jump nnn => exact addressOperand_toNat nnn
  | skipIfEqual x nn =>
    simp only [bytesEqual_iff]
    split <;> exact advancedBy_advanceBy s _
  | drawFault x y out => exact (if_pos ((spriteOutOfBounds_iff s _).mp out)).symm
  | draw x y inside =>
    exact (advancedBy_advance s).trans (if_neg ((spriteOutOfBounds_eq_false_iff s _).mp inside)).symm
  | reported report =>
    cases i with
    | jump | skipIfEqual | drawSprite => cases report
    | _ => exact advancedBy_advance s

end Sys2Proof.Machine
end

section
/-! PROOFS. The step (40_cycle_control.md section 1): what it fetches and runs, when it faults, that it reads no event;
and the report beside it (00_scope.md section 4). -/

namespace Sys2Proof.Machine

/-! ## Fetch, decode, execute -/

/-- The two bytes at `pc` decode to what the word they compose decodes to (R81). -/
theorem decode_bytesAtPc (s : State) : decode (bytesAtPc s) =
    .ok (decodeWord (wordOfBytes (Memory.read s.mem s.pc.toNat) (Memory.read s.mem (s.pc.toNat + 1))), []) := rfl

/-- A fetched word was in bounds (R81). -/
theorem pc_le_of_fetch_eq_some {s : State} {w : Word} (h : fetch s = some w) : s.pc.toNat ≤ 0x0FFE :=
  not_lt.mp fun hlt => by simp [(fetch_eq_none_iff s).mpr hlt] at h

/-- The fetched word is the one the two bytes at `pc` decode as. -/
theorem decode_bytesAtPc_of_fetch {s : State} {w : Word} (h : fetch s = some w) :
    decode (bytesAtPc s) = .ok (decodeWord w, []) := by
  rw [fetch_eq_some (pc_le_of_fetch_eq_some h)] at h
  rw [decode_bytesAtPc, Option.some.inj h]

/-- A step whose fetch finds no word takes `FetchOutOfBounds` (R110). -/
theorem step_of_fetch_none {s : State} (hs : s.fault = .noFault) (h : fetch s = none) :
    step s = .next { s with fault := .fetchOutOfBounds } := by
  rw [step, if_pos hs, h]
  rfl

/-- A step whose fetch finds a word runs it (R110). -/
theorem step_of_fetch_some {s : State} {w : Word} (hs : s.fault = .noFault) (h : fetch s = some w) :
    step s = exec (decodeWord w) s := by
  rw [step, if_pos hs, h]

/-- Settles O6: the word that the fetch finds decodes as the bytes at `pc` do. -/
theorem stepRunsTheDecodedInstruction : Obligations.StepRunsTheDecodedInstruction := by
  intro s i rest hs hpc h
  rw [step_of_fetch_some hs (fetch_eq_some hpc)]
  rw [decode_bytesAtPc] at h
  cases h
  rfl

/-- Settles O7, by `fetch_eq_none_iff`, `fetch_eq_some` and `toNat_wordOfBytes`. -/
theorem fetchIsBigEndianInBounds : Obligations.FetchIsBigEndianInBounds :=
  fun s => ⟨(fetch_eq_none_iff s).mpr, fun h => ⟨_, fetch_eq_some h, toNat_wordOfBytes _ _⟩⟩

/-- Settles O31, by `step_of_fetch_none`. -/
theorem fetchOutsideMemoryFaults : Obligations.FetchOutsideMemoryFaults :=
  fun s hs hpc => step_of_fetch_none hs ((fetch_eq_none_iff s).mpr hpc)

/-- Settles O8: the fetch finds no word and faults, or finds one, and every instruction has a next state. -/
theorem everyWordExecutes : Obligations.EveryWordExecutes := by
  refine fun s => ⟨fun hs => ?_, step_faulted⟩
  cases h : fetch s with
  | none => exact ⟨_, step_of_fetch_none hs h⟩
  | some w =>
    obtain ⟨t, e⟩ := exists_instrEffect (decodeWord w) s
    exact ⟨t, (step_of_fetch_some hs h).trans e.exec_eq⟩

/-! ## Faults -/

/-- Settles O32: past 0x0FFE the fetch takes its fault; up to it, what the fetched instruction does to the fault status
is `InstrEffect.fault_cases`. -/
theorem faultsExactlyWhenOutOfBounds : Obligations.FaultsExactlyWhenOutOfBounds := by
  intro s t hs h
  obtain ⟨-, ⟨hf, rfl⟩ | ⟨w, hf, hex⟩⟩ := step_cases h
  · have hpc := (fetch_eq_none_iff s).mp hf
    simp [hpc]
  · have hpc := pc_le_of_fetch_eq_some hf
    rw [decode_bytesAtPc_of_fetch hf]
    obtain ⟨hnone, hkeep⟩ | ⟨x, y, n, hi, out, rfl⟩ := (exec_eq_next_iff.mp hex).fault_cases
    · rw [hkeep, hs]
      refine ⟨by simp [hpc], ⟨by simp, ?_⟩, absurd rfl⟩
      rintro ⟨-, x, y, n, rest, hdec, hout⟩
      have hi : decodeWord w = .drawSprite x y n := congrArg Prod.fst (Except.ok.inj hdec)
      rw [hi, instrFault_drawSprite x y ((spriteOutOfBounds_iff s n).mpr hout)] at hnone
      cases hnone
    · have hout := (spriteOutOfBounds_iff s n).mp out
      exact ⟨by simp [hpc], ⟨fun _ => ⟨hpc, x, y, n, [], by rw [hi], hout⟩, fun _ => rfl⟩, fun _ => rfl⟩

/-! ## The diagnostic events -/

/-- The state with other events emitted before its own. -/
def withEarlierEvents (earlier : List DiagEvent) (s : State) : State := { s with diag := earlier ++ s.diag }

/-- The fetch reads no event (R81). -/
@[simp] theorem fetch_withEarlierEvents (earlier : List DiagEvent) (s : State) :
    fetch (withEarlierEvents earlier s) = fetch s := rfl

/-- The event of an unsupported word goes after all those emitted before (R180). -/
theorem withEarlierEvents_report (earlier : List DiagEvent) (s : State) (cls : DiagClass) (w : Word) :
    withEarlierEvents earlier (advance (emitDiag s cls w)) =
      advance (emitDiag (withEarlierEvents earlier s) cls w) := by
  simp [withEarlierEvents, emitDiag, advance, advanceBy, writePc]

/-- With other events emitted before, an instruction does the same to everything else and appends the same event
(R36). -/
theorem InstrEffect.withEarlierEvents {i : Instr} {s t : State} (e : InstrEffect s i t) (earlier : List DiagEvent) :
    InstrEffect (withEarlierEvents earlier s) i (withEarlierEvents earlier t) := by
  cases e with
  | clearScreen => exact .clearScreen
  | jump nnn => exact .jump nnn
  | skipIfEqual x nn => exact .skipIfEqual x nn
  | loadImmediate x nn => exact .loadImmediate x nn
  | addImmediate x nn => exact .addImmediate x nn
  | loadIndex nnn => exact .loadIndex nnn
  | drawFault x y out => exact .drawFault (s := Machine.withEarlierEvents earlier s) x y out
  | draw x y inside => exact .draw (s := Machine.withEarlierEvents earlier s) x y inside
  | reported report =>
    rw [withEarlierEvents_report]
    exact .reported report

/-- Settles O30: the fetch reads no event, and an instruction does not either
(`InstrEffect.withEarlierEvents`). -/
theorem eventsAreNeverRead : Obligations.EventsAreNeverRead := by
  refine fun s earlier => ⟨fun t h => ?_, fun f h => ?_⟩
  · change step (withEarlierEvents earlier s) = .next (withEarlierEvents earlier t)
    obtain ⟨hs, ⟨hf, rfl⟩ | ⟨w, hf, hex⟩⟩ := step_cases h
    · exact step_of_fetch_none hs hf
    · have e := (exec_eq_next_iff.mp hex).withEarlierEvents earlier
      exact (step_of_fetch_some (s := withEarlierEvents earlier s) hs hf).trans e.exec_eq
  · by_cases hs : s.fault = .noFault
    · obtain ⟨t, ht⟩ := (everyWordExecutes s).1 hs
      rw [ht] at h
      cases h
    · rw [step_faulted hs] at h
      exact (step_faulted (s := withEarlierEvents earlier s) hs).trans h

/-! ## The report of a step -/

/-- The report of a fetched word agrees with the effect of the instruction it decodes to (R13, R232). -/
theorem reportAgrees_wordReport {s t : State} {w : Word} (hs : s.fault = .noFault) (hf : fetch s = some w)
    (e : InstrEffect s (decodeWord w) t) : ReportAgrees s t (wordReport w s) := by
  have hdec : DecodesAtPc s (decodeWord w) := ⟨[], decode_bytesAtPc_of_fetch hf⟩
  rw [wordReport]
  obtain ⟨hnone, hkeep⟩ | ⟨x, y, n, hi, out, rfl⟩ := e.fault_cases
  · rw [hnone]
    cases hcls : diagClass (decodeWord w) with
    | none =>
      have hdiag := e.diag_eq
      rw [hcls] at hdiag
      exact ⟨⟨_, hdec, hcls⟩, hkeep.trans hs, hdiag.trans (List.append_nil _)⟩
    | some cls =>
      refine ⟨⟨_, hdec, hcls, encode_decodeWord w⟩, ?_⟩
      have hex := e.exec_eq
      rw [exec_of_diagClass hcls, unsupported_eq, encode_decodeWord] at hex
      exact (Host.Outcome.next.inj hex).symm
  · rw [hi, instrFault_drawSprite x y out]
    obtain ⟨hn, hout⟩ := (spriteOutOfBounds_iff s n).mp out
    exact ⟨rfl, rfl, ⟨x, y, hi ▸ hdec⟩, hn, hout, rfl⟩

/-- Settles O34: past 0x0FFE the report is the fetch's fault; up to it, it is that of the fetched word
(`reportAgrees_wordReport`). -/
theorem reportSaysWhatTheStepDid : Obligations.ReportSaysWhatTheStepDid := by
  intro s hs
  rw [stepReport, if_pos hs]
  cases hf : fetch s with
  | none => exact ⟨_, _, step_of_fetch_none hs hf, rfl, rfl, (fetch_eq_none_iff s).mp hf, rfl⟩
  | some w =>
    obtain ⟨t, e⟩ := exists_instrEffect (decodeWord w) s
    exact ⟨t, _, (step_of_fetch_some hs hf).trans e.exec_eq, rfl, reportAgrees_wordReport hs hf e⟩

end Sys2Proof.Machine
end

section
/-! PROOFS. The instructions' results, completion and frame: control transfer (40_cycle_control.md sections 2 to 4),
add-immediate (41_register_alu.md section 2), clear-screen (42_display.md section 1) and the unsupported words
(43_unsupported.md). -/

namespace Sys2Proof.Machine

/-! ## Control transfer -/

/-- A jump to its own address leaves the whole state (R115). -/
theorem writePc_addressOperand_self {s : State} {nnn : Field12} (h : s.pc.toNat = nnn.toNat) :
    writePc s (addressOperand nnn) = s := by
  have hpc : addressOperand nnn = s.pc := BitVec.eq_of_toNat_eq ((addressOperand_toNat nnn).trans h.symm)
  rw [hpc]
  rfl

/-- Settles O10: the effect of a jump is one write of `pc` (`addressOperand_toNat`, `writePc_addressOperand_self`), and
past 0x0FFE the next fetch faults. -/
theorem jumpSetsPcToItsField : Obligations.JumpSetsPcToItsField := by
  refine ⟨fun nnn s => ⟨writePc s (addressOperand nnn), (InstrEffect.jump nnn).exec_eq, addressOperand_toNat nnn, rfl,
    writePc_addressOperand_self, fun hnnn hs => ?_⟩, fun w h => decodeWord_of_family h (by decide)⟩
  have hpc : 0x0FFE < (addressOperand nnn).toNat := by
    rw [addressOperand_toNat, hnnn]
    decide
  exact fetchOutsideMemoryFaults (writePc s (addressOperand nnn)) hs hpc

/-- Settles O11: the effect of skip-if-equal is one advance, by 4 or by 2 (`advancedBy_advanceBy`), and past 0x0FFE the
next fetch faults. -/
theorem skipIfEqualAdvancesByTwoOrFour : Obligations.SkipIfEqualAdvancesByTwoOrFour := by
  refine ⟨fun x nn s => ⟨_, (InstrEffect.skipIfEqual x nn).exec_eq, rfl, fun heq => ?_, fun hne => ?_,
    fun heq hs hlo hhi => ?_⟩, fun w h => decodeWord_of_family h (by decide)⟩
  · rw [if_pos ((bytesEqual_iff _ _).mpr heq)]
    exact advancedBy_advanceBy s 4
  · rw [if_neg ((bytesEqual_iff _ _).not.mpr hne)]
    exact advancedBy_advanceBy s 2
  · rw [if_pos ((bytesEqual_iff _ _).mpr heq)]
    have hpc : (advanceBy s 4).pc.toNat = (s.pc.toNat + 4) % 65536 := advancedBy_advanceBy s 4
    exact fetchOutsideMemoryFaults (advanceBy s 4) hs (by omega)

/-! ## add-immediate and clear-screen -/

/-- Settles O13: the effect of add-immediate is one register write of the wrapped sum and the advance; 0xFF is -1
modulo 256. -/
theorem addImmediateWrapsWithoutCarry : Obligations.AddImmediateWrapsWithoutCarry := by
  refine ⟨fun x nn s => ⟨advance (writeV s x (addBytes (readV s x) nn)), (InstrEffect.addImmediate x nn).exec_eq, ?_,
    fun hnn => ?_, fun r hr => ?_, advancedBy_advance (writeV s x (addBytes (readV s x) nn)), rfl⟩,
    fun w h => decodeWord_of_family h (by decide)⟩
  · exact (congrArg BitVec.toNat (readV_writeV_same s x _)).trans (BitVec.toNat_add _ _)
  · subst hnn
    exact (readV_writeV_same s x _).trans (BitVec.sub_eq_add_neg (readV s x) 1).symm
  · exact readV_writeV_other s _ hr

/-- Settles O15: the effect of clear-screen writes the blank framebuffer; a word that decodes to clear-screen is its
encoding (`encode_decodeWord`). -/
theorem clearScreenZeroesEveryCell : Obligations.ClearScreenZeroesEveryCell := by
  refine ⟨fun s => ⟨_, InstrEffect.clearScreen.exec_eq, readCell_blank,
    advancedBy_advance (writeFb s blankFramebuffer), rfl⟩, fun w => ⟨fun h => ?_, fun h => h ▸ rfl⟩, by decide⟩
  rw [← encode_decodeWord w, h]
  rfl

/-! ## The unsupported words -/

/-- Settles O22, by `exec_of_diagClass` and `unsupported_eq`. -/
theorem unsupportedInstructionsOnlyReport : Obligations.UnsupportedInstructionsOnlyReport := by
  intro i cls s h
  rw [exec_of_diagClass h, unsupported_eq]

/-- A word with a diagnostic class executes as one event of that class, carrying the word itself, and the advance
(R180). -/
theorem exec_decodeWord_of_diagClass {w : Word} {cls : DiagClass} (h : diagClass (decodeWord w) = some cls)
    (s : State) : exec (decodeWord w) s = .next { s with pc := s.pc + 2, diag := s.diag ++ [⟨cls, w⟩] } := by
  rw [unsupportedInstructionsOnlyReport _ cls s h, encode_decodeWord]

/-- Settles O23: the three classes by their words, and a word that decodes to return is its encoding
(`encode_decodeWord`). -/
theorem returnCallMiscAreReportedNoOps : Obligations.ReturnCallMiscAreReportedNoOps := by
  refine ⟨exec_decodeWord_of_diagClass rfl, fun w => ⟨fun h => ?_, fun h => h ▸ rfl⟩, fun w s h => ?_, fun w s h => ?_,
    by decide⟩
  · rw [← encode_decodeWord w, h]
    rfl
  · exact exec_decodeWord_of_diagClass (by rw [decodeWord_of_family h (by decide)]; rfl) s
  · exact exec_decodeWord_of_diagClass (by rw [decodeWord_of_family h (by decide)]; rfl) s

/-- Settles O24: such a word decodes by its family, whose class is unknown (`diagClass_decodeFamily`). -/
theorem unknownFamiliesAreReportedNoOps : Obligations.UnknownFamiliesAreReportedNoOps := by
  intro w s h
  refine exec_decodeWord_of_diagClass ?_ s
  obtain ⟨hop, hclear, hret⟩ | hop := h
  · rw [decodeWord_of_ne hclear hret, hop]
    rfl
  · have hop0 : fieldOp w ≠ 0x0 := fun h0 => by simp [h0] at hop
    rw [decodeWord_of_fieldOp_ne_zero hop0, diagClass_decodeFamily]
    generalize fieldOp w = op at hop
    revert op
    decide

end Sys2Proof.Machine
end

section
/-! PROOFS. The sprite-blit engine (42_display.md section 2): the cells a sprite reaches, each with one row and one
column offset, and from it what draw-sprite toggles, where, and that it undoes itself. -/

namespace Sys2Proof.Machine

/-! ## The pixel of a sprite that lands on a cell -/

/-- The row offset at which a sprite whose first row is `y0` reaches row `sy` (R153). -/
def rowOffset (y0 : Nat) (sy : Fin 32) : Nat := (sy.val + (32 - y0 % 32)) % 32

/-- The column offset at which a sprite whose first column is `x0` reaches column `sx` (R153). -/
def columnOffset (x0 : Nat) (sx : Fin 64) : Nat := (sx.val + (64 - x0 % 64)) % 64

/-- The bit that a sprite of `n` rows toggles a cell by: 0 where the sprite does not reach (R152, R153). -/
def spritePixel (x0 y0 n : Nat) (row : Nat → Byte) (sy : Fin 32) (sx : Fin 64) : Bool :=
  decide (rowOffset y0 sy < n) &&
    (decide (columnOffset x0 sx < 8) && spriteBit (row (rowOffset y0 sy)) (columnOffset x0 sx))

/-- Of the row offsets below 32, exactly one reaches a given row: no two rows of a sprite overlap. -/
theorem eq_targetRow_iff {y0 r : Nat} (hr : r < 32) (sy : Fin 32) : sy = targetRow y0 r ↔ r = rowOffset y0 sy := by
  simp only [Fin.ext_iff, targetRow, rowOffset]
  omega

/-- Of the column offsets below 64, exactly one reaches a given column: no two pixels of a row overlap. -/
theorem eq_targetColumn_iff {x0 c : Nat} (hc : c < 64) (sx : Fin 64) :
    sx = targetColumn x0 c ↔ c = columnOffset x0 sx := by
  simp only [Fin.ext_iff, targetColumn, columnOffset]
  omega

/-- One more offset `n` after those below `n`: the bit of the one offset `d` counts once it is below. -/
theorem xor_bit_succ {d n : Nat} {b b' : Bool} (h : n = d → b' = b) (acc : Bool) :
    ((acc ^^ (decide (d < n) && b)) ^^ (decide (n = d) && b')) = (acc ^^ (decide (d < n + 1) && b)) := by
  obtain hlt | heq | hgt := Nat.lt_trichotomy n d
  · simp [hlt.ne, hlt.not_gt, Nat.not_lt.mpr (Nat.succ_le_of_lt hlt)]
  · simp [heq, h heq]
  · simp [hgt.ne', hgt, Nat.lt_succ_of_lt hgt]

/-- Toggling by the bit of one offset alone, if it is in the range. -/
theorem foldl_range_xor_single (bit : Nat → Bool) (d n : Nat) (acc : Bool) :
    (List.range n).foldl (fun acc k => acc ^^ (decide (k = d) && bit k)) acc = (acc ^^ (decide (d < n) && bit d)) := by
  induction n with
  | zero => simp
  | succ n ih =>
    rw [List.range_succ, List.foldl_append, ih]
    exact xor_bit_succ (fun h => congrArg bit h) acc

/-- One sprite row toggles, in its own row, the cell at each column offset below 8 by that offset's bit (R151). -/
theorem readCell_drawRow (x0 : Nat) (row : Fin 32) (b : Byte) (fb : Framebuffer) (sy : Fin 32) (sx : Fin 64) :
    readCell (drawRow x0 row b fb) sy sx = (readCell fb sy sx ^^
      (decide (sy = row) && (decide (columnOffset x0 sx < 8) && spriteBit b (columnOffset x0 sx)))) := by
  have hbit (acc : Bool) : ∀ c ∈ List.range Config.spriteWidth,
      (acc ^^ (decide (sy = row ∧ sx = targetColumn x0 c) && spriteBit b c)) =
        (acc ^^ (decide (c = columnOffset x0 sx) && (decide (sy = row) && spriteBit b c))) := by
    intro c hc
    have hc64 : c < 64 := (List.mem_range.mp hc).trans (by decide)
    simp only [eq_targetColumn_iff hc64, Bool.decide_and, Bool.and_comm (decide (sy = row)), Bool.and_assoc]
  rw [drawRow, readCell_foldl_toggle, List.foldl_ext _ _ _ hbit, foldl_range_xor_single]
  rw [Bool.and_left_comm]
  rfl

/-- A sprite of at most 32 rows toggles each cell by its pixel (R151). -/
theorem readCell_drawRows {n : Nat} (hn : n ≤ 32) (x0 y0 : Nat) (row : Nat → Byte) (fb : Framebuffer) (sy : Fin 32)
    (sx : Fin 64) :
    readCell (drawRows x0 y0 n row fb) sy sx = (readCell fb sy sx ^^ spritePixel x0 y0 n row sy sx) := by
  induction n with
  | zero => simp [spritePixel]
  | succ n ih =>
    rw [drawRows_succ, readCell_drawRow, ih (by omega)]
    simp only [eq_targetRow_iff (Nat.lt_of_succ_le hn)]
    exact xor_bit_succ (fun h => by rw [h]) (readCell fb sy sx)

/-- The pixel at a row and a column offset that the sprite has. -/
theorem spritePixel_of_reached {x0 y0 n r c : Nat} {row : Nat → Byte} {sy : Fin 32} {sx : Fin 64} (hn : n ≤ 32)
    (hr : r < n) (hc : c < 8) (hsy : sy = targetRow y0 r) (hsx : sx = targetColumn x0 c) :
    spritePixel x0 y0 n row sy sx = spriteBit (row r) c := by
  rw [eq_targetRow_iff (by omega)] at hsy
  rw [eq_targetColumn_iff (by omega)] at hsx
  subst hsy hsx
  simp [spritePixel, hr, hc]

/-- There is no pixel on a cell that no row and column offset of the sprite reaches. -/
theorem spritePixel_of_not_reached {x0 y0 n : Nat} {row : Nat → Byte} {sy : Fin 32} {sx : Fin 64}
    (h : ∀ r c, r < n → c < 8 → ¬ (sy = targetRow y0 r ∧ sx = targetColumn x0 c)) (hn : n ≤ 32) :
    spritePixel x0 y0 n row sy sx = false := by
  by_cases hr : rowOffset y0 sy < n
  · have hc : ¬ columnOffset x0 sx < 8 := fun hc => h _ _ hr hc
      ⟨(eq_targetRow_iff (by omega) sy).mpr rfl, (eq_targetColumn_iff (by omega) sx).mpr rfl⟩
    simp [spritePixel, hc]
  · simp [spritePixel, hr]

/-- The pixels depend on the bytes of the sprite's own rows alone. -/
theorem spritePixel_congr {x0 y0 n : Nat} {row row' : Nat → Byte} (h : ∀ r < n, row r = row' r) (sy : Fin 32)
    (sx : Fin 64) : spritePixel x0 y0 n row sy sx = spritePixel x0 y0 n row' sy sx := by
  by_cases hr : rowOffset y0 sy < n
  · rw [spritePixel, spritePixel, h _ hr]
  · simp [spritePixel, hr]

/-- The same pixels toggled twice leave the framebuffer. -/
theorem drawRows_drawRows {n : Nat} (hn : n ≤ 32) {x0 y0 : Nat} {row row' : Nat → Byte} (h : ∀ r < n, row' r = row r)
    (fb : Framebuffer) : drawRows x0 y0 n row' (drawRows x0 y0 n row fb) = fb := by
  apply framebuffer_ext
  intro sy sx
  rw [readCell_drawRows hn, readCell_drawRows hn, spritePixel_congr h, Bool.xor_assoc, Bool.xor_self, Bool.xor_false]

/-! ## draw-sprite -/

/-- draw-sprite's framebuffer: as before on a fault, else the sprite's rows drawn onto it (R151). -/
theorem InstrEffect.drawSprite_fb {x y : RegIdx} {n : Nibble} {s t : State}
    (e : InstrEffect s (.drawSprite x y n) t) : t.fb = if spriteOutOfBounds s n then s.fb else
      drawRows (startColumn s x) (startRow s y) n.toNat (spriteByte s) s.fb := by
  cases e with
  | drawFault x y out => rw [if_pos out]
  | draw x y inside => rw [if_neg (by simp [inside])]; rfl
  | reported report => cases report

/-- The bounds test reads `I` alone (R159). -/
theorem spriteOutOfBounds_congr {s s' : State} (hi : s'.i = s.i) (n : Nibble) :
    spriteOutOfBounds s' n = spriteOutOfBounds s n := by
  rw [spriteOutOfBounds, spriteOutOfBounds, spriteAddress, spriteAddress, hi]

/-- Settles O17: the first clause is the effect of a draw-sprite out of bounds; a fault taken says that the bounds test
failed (`InstrEffect.fault_cases`). -/
theorem drawSpriteFaultsBeforeDrawing : Obligations.DrawSpriteFaultsBeforeDrawing := by
  refine fun x y n s => ⟨fun hn hout => ?_, fun hs h => ?_⟩
  · exact (InstrEffect.drawFault x y ((spriteOutOfBounds_iff s n).mpr ⟨hn, hout⟩)).exec_eq
  · obtain ⟨-, hkeep⟩ | ⟨_, _, _, hi, out, -⟩ := (exec_eq_next_iff.mp h).fault_cases
    · rw [hs] at hkeep
      cases hkeep
    · cases hi
      obtain ⟨hn, hout⟩ := (spriteOutOfBounds_iff s n).mp out
      exact ⟨hn, hout, by omega⟩

/-- Settles O16: in bounds the effect draws the sprite's rows, each cell by its pixel (`readCell_drawRows`), and the
pixel is the sprite's bit where a row and column offset reach the cell, else 0. -/
theorem drawSpriteTogglesItsCells : Obligations.DrawSpriteTogglesItsCells := by
  refine ⟨fun x y n s hin => ?_, fun w h => decodeWord_of_family h (by decide)⟩
  have inside : spriteOutOfBounds s n = false := (spriteOutOfBounds_eq_false_iff s n).mpr (by omega)
  have hn : n.toNat ≤ 32 := by omega
  refine ⟨_, (InstrEffect.draw x y inside).exec_eq, advancedBy_advance (writeFb s _), rfl,
    fun r c sy sx hr hc hsy hsx => ?_, fun sy sx hnot => ?_⟩
  · have hrow : sy = targetRow (startRow s y) r := Fin.ext hsy
    have hcol : sx = targetColumn (startColumn s x) c := Fin.ext hsx
    rw [advance_fb, writeFb_fb, readCell_drawRows hn, spritePixel_of_reached hn hr hc hrow hcol]
    rfl
  · have hmiss : ∀ r c, r < n.toNat → c < 8 →
        ¬ (sy = targetRow (startRow s y) r ∧ sx = targetColumn (startColumn s x) c) := fun r c hr hc h =>
      hnot r c hr hc ⟨congrArg Fin.val h.1, congrArg Fin.val h.2⟩
    rw [advance_fb, writeFb_fb, readCell_drawRows hn, spritePixel_of_not_reached hmiss hn, Bool.xor_false]

/-- Settles O20: the framebuffer after draw-sprite is a function of the bounds test, the start cell, the sprite's bytes
and the framebuffer before (`InstrEffect.drawSprite_fb`), and all of these agree. -/
theorem congruentCoordinatesDrawAlike : Obligations.CongruentCoordinatesDrawAlike := by
  intro x y x' y' n s s' t t' hfb hi hmem hx hy h h'
  have hbyte : spriteByte s' = spriteByte s := funext fun r => by
    simp only [spriteByte, spriteAddress, hi, hmem]
  have hcol : startColumn s' x' = startColumn s x := hx
  have hrow : startRow s' y' = startRow s y := hy
  rw [(exec_eq_next_iff.mp h).drawSprite_fb, (exec_eq_next_iff.mp h').drawSprite_fb, spriteOutOfBounds_congr hi n,
    hbyte, hcol, hrow, hfb]

/-- Settles O21: both draw-sprites fault and leave the framebuffer, or both draw the same pixels, which undo
themselves (`drawRows_drawRows`). -/
theorem spriteDrawnTwiceErasesItself : Obligations.SpriteDrawnTwiceErasesItself := by
  intro x y n s t s' t' h hfb hi hx hy hbytes h'
  have hbyte : ∀ r < n.toNat, spriteByte s' r = spriteByte s r := fun r hr => by
    simp only [spriteByte, spriteAddress, hi, hbytes r hr]
  have hcol : startColumn s' x = startColumn s x := by rw [startColumn, startColumn, hx]
  have hrow : startRow s' y = startRow s y := by rw [startRow, startRow, hy]
  rw [(exec_eq_next_iff.mp h').drawSprite_fb, hfb, (exec_eq_next_iff.mp h).drawSprite_fb, spriteOutOfBounds_congr hi n,
    hcol, hrow]
  split
  · rfl
  · exact drawRows_drawRows (by omega) hbyte s.fb

end Sys2Proof.Machine
end

section
/-! PROOFS. The host's operations (50_host_interface.md section 1): RESET, LOAD, CLEAR, RUN and the screen. -/

namespace Sys2Proof.Machine

/-! ## RESET and CLEAR -/

/-- RESET sets the register file of power-on (R37). -/
@[simp] theorem readV_opReset (s : State) (r : RegIdx) : readV (opReset s) r = 0 :=
  (readV_congr (s := State.reset) rfl r).trans (readV_reset r)

/-- Settles O40: the fields that RESET writes, and the memory it keeps. -/
theorem resetLeavesItsValues : Obligations.ResetLeavesItsValues :=
  ⟨fun s => ⟨rfl, readV_opReset s, rfl, rfl, readCell_blank, rfl, fun _ => rfl, rfl⟩, rfl, fun _ => rfl⟩

/-- Settles O48: CLEAR writes the blank framebuffer (`readCell_blank`). -/
theorem clearZeroesTheScreenOnly : Obligations.ClearZeroesTheScreenOnly :=
  fun s => ⟨opClear s, rfl, readCell_blank, rfl⟩

/-! ## LOAD -/

/-- A `LOAD` within its precondition writes its bytes and `pc` (R202). -/
theorem opLoad_eq {bytes : List Byte} {size : Nat} (hmax : size ≤ Config.maxProg) (hlen : size ≤ bytes.length)
    (s : State) : opLoad bytes size s =
      .next { s with mem := Memory.writeBytes s.mem Config.progBase (bytes.take size), pc := 0x200 } := by
  rw [opLoad, if_neg hmax.not_gt, if_neg hlen.not_gt]
  rfl

/-- Settles O41, by `opLoad_eq` and what `Memory.read_writeBytes` says of the bytes written and of the others. -/
theorem loadPlacesTheImage : Obligations.LoadPlacesTheImage := by
  intro bytes size s hmax hlen
  refine ⟨_, opLoad_eq hmax hlen s, fun k hk => ?_, fun a ha => ?_, rfl, rfl⟩
  all_goals rw [Memory.read_writeBytes, List.length_take_of_le hlen, Config.progBase]
  · rw [if_pos (by omega), Nat.add_sub_cancel_left]
    simp [hk]
  · rw [if_neg (by omega)]

/-- Settles O42: the two tests of `LOAD` are its precondition (R203). -/
theorem loadOutsideItsPreconditionIsRefused : Obligations.LoadOutsideItsPreconditionIsRefused := by
  intro bytes size s h
  by_cases hmax : 3584 < size
  · exact ⟨.loadTooLarge, if_pos hmax⟩
  · exact ⟨.loadTooShort, (if_neg hmax).trans (if_pos (h.resolve_left hmax))⟩

/-- Settles O46: a `LOAD` that answers met its precondition, which does not speak of the state. -/
theorem loadAndResetCommute : Obligations.LoadAndResetCommute := by
  intro bytes size s t h
  obtain ⟨hmax, hlen, rfl⟩ := opLoad_cases h
  exact opLoad_eq hmax hlen (opReset s)

/-! ## RUN -/

/-- A step that answers is the first of a `RUN` (R204). -/
theorem opRun_succ_of_next {s t : State} (h : step s = .next t) (n : Nat) : opRun (n + 1) s = opRun n t := by
  rw [opRun, h]

/-- Where no step leads to another state, a `RUN` stays (R204). -/
theorem opRun_eq_self {s : State} (h : ∀ t, step s = .next t → t = s) (n : Nat) : opRun n s = s := by
  induction n with
  | zero => rfl
  | succ n ih =>
    rw [opRun]
    split
    · next t ht => rw [h t ht, ih]
    · rfl
    · rfl

/-- A faulted Engine has no step, so a `RUN` leaves it (R233). -/
theorem opRun_faulted {s : State} (hs : s.fault ≠ .noFault) (n : Nat) : opRun n s = s :=
  opRun_eq_self (fun t h => by simp [step_faulted hs] at h) n

/-- RUN(a + b) is RUN(b) after RUN(a): step by step where the Engine has a step, and at rest where it has none. -/
theorem opRun_add (a b : Nat) (s : State) : opRun (a + b) s = opRun b (opRun a s) := by
  induction a generalizing s with
  | zero => rw [Nat.zero_add, opRun]
  | succ a ih =>
    by_cases h : ∃ t, step s = .next t
    · obtain ⟨t, ht⟩ := h
      rw [Nat.succ_add, opRun_succ_of_next ht, opRun_succ_of_next ht, ih]
    · have hself := opRun_eq_self fun t ht => absurd ⟨t, ht⟩ h
      rw [hself, hself, hself]

/-- Settles O44, by `opRun_succ_of_next` and `opRun_add`. -/
theorem runsCompose : Obligations.RunsCompose :=
  fun s => ⟨fun _ => rfl, rfl, fun n _ h => opRun_succ_of_next h n, fun a b => opRun_add a b s⟩

/-- Settles O45: the step runs the jump, which leaves the state (`writePc_addressOperand_self`), and so does a `RUN`
(`opRun_eq_self`). -/
theorem jumpToItselfHoldsTheState : Obligations.JumpToItselfHoldsTheState := by
  intro s nnn rest hs hpc hdec hself n
  refine opRun_eq_self (fun t ht => ?_) n
  rw [stepRunsTheDecodedInstruction s _ rest hs hpc hdec] at ht
  have hjump : exec (.jump nnn) s = .next (writePc s (addressOperand nnn)) := (InstrEffect.jump nnn).exec_eq
  rw [hjump, writePc_addressOperand_self hself.symm] at ht
  exact (Host.Outcome.next.inj ht).symm

/-- Settles O33: the step and the `RUN` of a faulted Engine, and the operations that are neither `RESET` nor `RUN`
do not write the fault status. -/
theorem onlyResetLeavesTheFaultedState : Obligations.OnlyResetLeavesTheFaultedState := by
  refine fun s hs => ⟨step_faulted hs, opRun_faulted hs, fun op t hop h => ?_, rfl⟩
  cases op with
  | reset => exact absurd rfl hop
  | load bytes size =>
    obtain ⟨-, -, rfl⟩ := opLoad_cases h
    rfl
  | run n =>
    cases h
    rw [opRun_faulted hs]
  | clear | screen | width | height =>
    cases h
    rfl

/-! ## Memory under the host's operations -/

/-- A step writes no memory: it takes a fault or runs an instruction (R55). -/
theorem step_keeps_mem {s t : State} (h : step s = .next t) : t.mem = s.mem := by
  obtain ⟨-, ⟨-, rfl⟩ | ⟨w, -, hex⟩⟩ := step_cases h
  · rfl
  · exact (exec_eq_next_iff.mp hex).keeps_mem

/-- No host operation but `LOAD` writes memory. -/
theorem hostOp_keeps_mem {op : HostOp} {s t : State} (hop : ∀ bytes size, op ≠ .load bytes size)
    (h : hostOp op s = .next t) : t.mem = s.mem := by
  cases op with
  | load bytes size => exact absurd rfl (hop bytes size)
  | run n =>
    cases h
    exact opRun_keeps (P := fun u => u.mem = s.mem) (fun u v hu huv => (step_keeps_mem huv).trans hu) n s rfl
  | reset | clear | screen | width | height =>
    cases h
    rfl

/-- Settles O43, by `hostOp_keeps_mem`. -/
theorem onlyLoadWritesMemory : Obligations.OnlyLoadWritesMemory := by
  intro op s t hop h a
  rw [hostOp_keeps_mem hop h]

/-! ## The screen -/

/-- Settles O47: the row and the column of an element are the quotient and the remainder of its number by 64. -/
theorem screenViewIsRowMajor : Obligations.ScreenViewIsRowMajor := by
  refine fun s => ⟨fun sy sx h => ?_, rfl, rfl, rfl, rfl, rfl, rfl⟩
  have hsy : (⟨(sy.val * 64 + sx.val) / 64, by omega⟩ : Fin 32) = sy := Fin.ext (by simp only; omega)
  have hsx : (⟨(sy.val * 64 + sx.val) % 64, by omega⟩ : Fin 64) = sx := Fin.ext (by simp only; omega)
  rw [screenView, Vector.getElem_ofFn, hsy, hsx]

end Sys2Proof.Machine
end

section
/-! PROOFS. The invariant: memory in canonical form, `I` at most 0x0FFF, `pc` at most 0x1002 (10_state.md sections 3
and 4); it holds at reset and every step and host operation keeps it. The reserved area (20_memory.md section 1), and
the canonical form itself. -/

namespace Sys2Proof.Machine

/-- Settles O35, by computation on the one state. -/
theorem resetStateMeetsInvariant : Obligations.ResetStateMeetsInvariant :=
  ⟨Memory.wf_nil, by decide, by decide⟩

/-- `I` holds twelve bits after load-index, and any other instruction leaves it (R25). -/
theorem exec_i_le {i : Instr} {s t : State} (hi : s.i.toNat ≤ 0x0FFF) (h : exec i s = .next t) :
    t.i.toNat ≤ 0x0FFF := by
  have hti := indexRegisterUse.1 i s t h
  split at hti
  · omega
  · omega

/-- From a fetchable `pc` no instruction leads past 0x1002, a taken skip at 0x0FFE (R29). -/
theorem exec_pc_le {i : Instr} {s t : State} (hpc : s.pc.toNat ≤ 0x0FFE) (h : exec i s = .next t) :
    t.pc.toNat ≤ 0x1002 := by
  have htpc := nextPcOfEveryInstruction i s t h
  split at htpc
  · omega
  · split at htpc <;> omega
  · split at htpc <;> omega
  · omega

/-- Settles O36: a fetch fault leaves memory, `I` and `pc`; an instruction was fetched at a `pc` up to 0x0FFE, keeps
memory, and leaves `I` and `pc` in bounds (`exec_i_le`, `exec_pc_le`). -/
theorem stepKeepsInvariant : Obligations.StepKeepsInvariant := by
  rintro s t ⟨hmem, hi, hpc⟩ h
  refine ⟨by rwa [step_keeps_mem h], ?_⟩
  obtain ⟨-, ⟨-, rfl⟩ | ⟨w, hf, hex⟩⟩ := step_cases h
  · exact ⟨hi, hpc⟩
  · exact ⟨exec_i_le hi hex, exec_pc_le (pc_le_of_fetch_eq_some hf) hex⟩

/-- Settles O49: `LOAD` writes inside working memory (`Memory.wf_writeBytes`) and sets `pc` to 0x200; `RUN` keeps what
every step keeps (`opRun_keeps`, `stepKeepsInvariant`). -/
theorem hostOperationsKeepInvariant : Obligations.HostOperationsKeepInvariant := by
  rintro op s t ⟨hmem, hi, hpc⟩ h
  cases op with
  | reset =>
    cases h
    exact ⟨hmem, by simp, by simp⟩
  | load bytes size =>
    obtain ⟨hmax, hlen, rfl⟩ := opLoad_cases h
    refine ⟨Memory.wf_writeBytes _ ?_ hmem, hi, by simp⟩
    rw [List.length_take_of_le hlen]
    exact Nat.add_le_add_left hmax Config.progBase
  | run n =>
    cases h
    exact opRun_keeps stepKeepsInvariant n s ⟨hmem, hi, hpc⟩
  | clear | screen | width | height =>
    cases h
    exact ⟨hmem, hi, hpc⟩

/-- Settles O37, by induction on how the state is reached, with `hostOperationsKeepInvariant` as its step. -/
theorem reachableStatesMeetInvariant : Obligations.ReachableStatesMeetInvariant := by
  intro s h
  induction h with
  | powerOn => exact resetStateMeetsInvariant
  | move op _ e ih => exact hostOperationsKeepInvariant op _ _ ih e

/-- A host operation leaves every byte below 0x200: `LOAD` writes from 0x200 up, and no other writes memory. -/
theorem hostOp_keeps_reserved {op : HostOp} {s t : State} (h : hostOp op s = .next t) {a : Nat} (ha : a < 0x200) :
    Memory.read t.mem a = Memory.read s.mem a := by
  cases op with
  | load bytes size =>
    obtain ⟨-, -, rfl⟩ := opLoad_cases h
    exact (Memory.read_writeBytes ..).trans (if_neg fun hbase => hbase.1.not_gt ha)
  | reset | clear | run | screen | width | height => rw [hostOp_keeps_mem (by simp) h]

/-- Settles O38, by induction on how the state is reached, with `hostOp_keeps_reserved` as its step. -/
theorem reservedAreaKeepsPowerOnBytes : Obligations.ReservedAreaKeepsPowerOnBytes := by
  intro s h a ha
  induction h with
  | powerOn => rfl
  | move op _ e ih => rw [hostOp_keeps_reserved e ha, ih]

/-! ## The canonical form of memory -/

/-- The canonical form of a listed byte and the rest. -/
theorem Memory.wfFrom_cons {lo a : Nat} {b : Byte} {rest : List Host.Cell} :
    Memory.wfFrom lo ((a, b) :: rest) = true ↔
      lo ≤ a ∧ a < Config.memSize ∧ Memory.wfFrom (a + 1) rest = true := by
  simp [Memory.wfFrom, and_assoc]

/-- Below its first address a canonical memory reads as power-on left it. -/
theorem Memory.readWith_of_lt {m : List Host.Cell} {lo a : Nat} (hwf : Memory.wfFrom lo m = true) (ha : a < lo)
    (init : Nat → Byte) : Memory.readWith init m a = init a := by
  induction m generalizing lo with
  | nil => rfl
  | cons c rest ih =>
    obtain ⟨a', b⟩ := c
    obtain ⟨hlo, -, hrest⟩ := Memory.wfFrom_cons.mp hwf
    rw [Memory.readWith, if_neg (by omega), ih hrest (by omega)]

/-- The first listed byte is read whatever power-on left. -/
theorem Memory.readWith_head (init : Nat → Byte) (a : Nat) (b : Byte) (rest : List Host.Cell) :
    Memory.readWith init ((a, b) :: rest) a = b := if_pos rfl

/-- If a canonical memory with all addresses from `lo` up reads, over every power-on contents, as one that lists a byte
at `a` first, then `a` is not below `lo`: there it would read as power-on left it, whatever that is. -/
theorem Memory.le_of_readWith_eq {m rest : List Host.Cell} {lo a : Nat} {b : Byte} (hwf : Memory.wfFrom lo m = true)
    (h : ∀ (init : Nat → Byte) (x : Nat), Memory.readWith init ((a, b) :: rest) x = Memory.readWith init m x) :
    lo ≤ a := by
  by_contra hlt
  have hb : b = b + 1 := by
    simpa [Memory.readWith_of_lt hwf (not_le.mp hlt), Memory.readWith_head] using h (fun _ => b + 1) a
  bv_omega

/-- Memories in canonical form that read alike over every power-on contents are the same data: their first addresses
are the same (`Memory.le_of_readWith_eq`), so are the bytes there, and the rests read alike. -/
theorem Memory.eq_of_readWith_eq {m m' : List Host.Cell} {lo : Nat} (hwf : Memory.wfFrom lo m = true)
    (hwf' : Memory.wfFrom lo m' = true)
    (h : ∀ (init : Nat → Byte) (x : Nat), Memory.readWith init m x = Memory.readWith init m' x) : m = m' := by
  induction m generalizing lo m' with
  | nil =>
    cases m' with
    | nil => rfl
    | cons c' rest' =>
      have hle := Memory.le_of_readWith_eq (m := []) (lo := c'.1 + 1) rfl fun init x => (h init x).symm
      omega
  | cons c rest ih =>
    obtain ⟨a, b⟩ := c
    cases m' with
    | nil =>
      have hle := Memory.le_of_readWith_eq (lo := a + 1) rfl h
      omega
    | cons c' rest' =>
      obtain ⟨a', b'⟩ := c'
      obtain ⟨hlo, ha, hrest⟩ := Memory.wfFrom_cons.mp hwf
      obtain ⟨hlo', ha', hrest'⟩ := Memory.wfFrom_cons.mp hwf'
      have hle : a' ≤ a := Memory.le_of_readWith_eq (Memory.wfFrom_cons.mpr ⟨le_rfl, ha', hrest'⟩) h
      have hge : a ≤ a' :=
        Memory.le_of_readWith_eq (Memory.wfFrom_cons.mpr ⟨le_rfl, ha, hrest⟩) fun init x => (h init x).symm
      obtain rfl := Nat.le_antisymm hle hge
      obtain rfl : b = b' := by simpa [Memory.readWith_head] using h Config.memInit a'
      have hrests : ∀ (init : Nat → Byte) (x : Nat), Memory.readWith init rest x = Memory.readWith init rest' x := by
        intro init x
        by_cases hx : x = a'
        · have hlt : x < a' + 1 := by omega
          rw [Memory.readWith_of_lt hrest hlt, Memory.readWith_of_lt hrest' hlt]
        · simpa [Memory.readWith, hx] using h init x
      rw [ih hrest hrest' hrests]

/-- Settles O39, by `Memory.eq_of_readWith_eq`. -/
theorem canonicalMemoriesReadingAlikeAreEqual : Obligations.CanonicalMemoriesReadingAlikeAreEqual :=
  fun _ _ hwf hwf' h => Memory.eq_of_readWith_eq hwf hwf' h

end Sys2Proof.Machine
end
